-- ==== Sys2Proof/Word.lean ====
section
/-! DEFINITION. The widths of the latch-motor controller's values: the latch byte and a duty (8 bits, 10_state.md R13, R19)
and the command word (32 bits, 30_encoding.md R45). -/

namespace Sys2Proof

/-- An 8-bit value: `SHADOW`, `SR_STAGE`, `SR_OUT`, a duty. Position `p` is the bit of weight `2^p` (20_memory.md R35). -/
abbrev Byte := BitVec 8

/-- A command word `cmd[31:0]` (30_encoding.md R45). -/
abbrev Word := BitVec 32

end Sys2Proof
end

