-- ==== Sys2Proof/Machine/Event.lean ====
section
/-! DEFINITION. The events of 10_state.md R27, one per call of an external capability (00_scope.md R4), and the fixed event
sequences of the block: the shift-out (40_latch_register.md R67), the commit (R64, R72) and the reset (70_reset_and_hazards.md R110). -/

namespace Sys2Proof.Machine

/-- The three bus wires, "3-wire serial interface" (10_state.md R16). -/
inductive Line where
  | data
  | clock
  | latch
  deriving DecidableEq, Repr

/-- The argument of a delay, by its name, so that traces stay comparable data while its length is OPEN: the block asks for one
delay only, `P_TSETTLE_US` (40_latch_register.md R68; log entry 7). -/
inductive DelayTime where
  /-- `P_TSETTLE_US`. -/
  | settle
  deriving DecidableEq, Repr

/-- An event (10_state.md R27). -/
inductive Event where
  /-- `Dig(L, v)`: `digitalOutput` on a bus pin. -/
  | dig (line : Line) (level : Bool)
  /-- `Delay(t)`: `delayMicroseconds(t)`. -/
  | delay (t : DelayTime)
  /-- `PwmAna(n, d)`: `analogOutput(pwmPinOf[n], d)`. -/
  | pwmAna (n : Fin 4) (d : Byte)
  /-- `PwmGate(n, v)`: a PWM pin written on or off. -/
  | pwmGate (n : Fin 4) (on : Bool)
  deriving DecidableEq, Repr

/-- An event on the 3-wire bus: a `Dig` or a `Delay`, the events a commit is made of (40_latch_register.md R65). -/
def Event.isBus : Event → Bool
  | .dig _ _ => true
  | .delay _ => true
  | .pwmAna _ _ => false
  | .pwmGate _ _ => false

/-- The four channels in ascending order, the trace's convention (92_eei_decisions.md D20). -/
def channels : List (Fin 4) := [0, 1, 2, 3]

/-- `Delay(P_TSETTLE_US)` (40_latch_register.md R68). -/
def settleDelay : Event := .delay .settle

/-- One bit on the wire: `DATA <- x`, then the clock high, then low (40_latch_register.md R67). -/
def bitEvents (x : Bool) : List Event :=
  [.dig .data x, .dig .clock true, .dig .clock false]

/-- `for i = k-1 downto 0` of `shiftOutMSBFirst(b)` (40_latch_register.md R67). -/
def shiftEventsFrom (b : Byte) : Nat → List Event
  | 0 => []
  | i + 1 => bitEvents (b.getLsbD i) ++ shiftEventsFrom b i

/-- The 24 events of `shiftOutMSBFirst(b)` (40_latch_register.md R67). -/
def shiftEvents (b : Byte) : List Event := shiftEventsFrom b 8

/-- The latch pulse between its two settling delays (40_latch_register.md R64, R68). -/
def pulseEvents : List Event :=
  [settleDelay, .dig .latch true, .dig .latch false, settleDelay]

/-- The 28 events of `commit(b)` (40_latch_register.md R64, R72). -/
def commitEvents (b : Byte) : List Event := shiftEvents b ++ pulseEvents

/-- `PwmGate(n, on)` for every channel (42_pin_and_global_commands.md R88). -/
def gateEvents (on : Bool) : List Event := channels.map fun n => .pwmGate n on

/-- The 32 events of the reset sequence: the channels disabled first, then `commit(0x00)` (70_reset_and_hazards.md R110). -/
def resetEvents : List Event := gateEvents false ++ commitEvents 0#8

end Sys2Proof.Machine
end

