-- ==== Sys2Proof/Machine/State.lean ====
section
/-! DEFINITION. The state of 10_state.md, the host's moves still to come, the outcome reasons, and the state after reset. -/

namespace Sys2Proof.Machine

/-- What the host may do, "and nothing else": present a command word, assert reset (70_reset_and_hazards.md R117). -/
inductive HostMove where
  /-- One command word on the port (30_encoding.md R45). -/
  | command (w : Word)
  /-- Reset between commands (70_reset_and_hazards.md R109). -/
  | reset
  /-- Reset asserted while the command `w` executes, after `k` of its events: the command is abandoned
  (70_reset_and_hazards.md R109; log entry 5). The four writes of the `enableAll` family are one step: a `k` inside them
  is a reset before it (42_pin_and_global_commands.md R88). -/
  | resetDuring (w : Word) (k : Nat)
  deriving DecidableEq, Repr

/-- The machine's state: every element of 10_state.md R30, then the trace (R27) and the host's moves (log entry 1). -/
structure State where
  /-- `SHADOW` (10_state.md R13). -/
  shadow : Byte
  /-- `DATA` (10_state.md R16). -/
  data : Bool
  /-- `CLOCK` (10_state.md R16). -/
  clock : Bool
  /-- `LATCH` (10_state.md R16). -/
  latch : Bool
  /-- `DUTY[0..3]` (10_state.md R19). -/
  duty : Vector Byte 4
  /-- `EN[0..3]` (10_state.md R20). -/
  en : Vector Bool 4
  /-- `FAULT`, sticky (10_state.md R17). -/
  fault : Bool
  /-- `CAUSE`: 0 none, 1 POS_RANGE, 2 PAIR_ALIAS, 3 never written (10_state.md R18). -/
  cause : BitVec 2
  /-- `SR_STAGE`, the external register's internal storage (10_state.md R23). -/
  srStage : Byte
  /-- `SR_OUT`, the external register's parallel outputs (10_state.md R24). -/
  srOut : Byte
  /-- The run's trace, oldest event first (10_state.md R27, 70_reset_and_hazards.md R122; log entry 2). -/
  trace : List Event
  /-- The host's moves not yet made, the next one first: the MODEL's own field (log entry 1). -/
  host : List HostMove
  deriving DecidableEq, Repr

/-- Why a step stops with a fault: NEVER. The block's one kind of fault is a state it enters and stays in (`FAULT = 1`,
60_exceptions.md R97, R98), so taking it is a next state, and no step of this machine stops (log entry 10). -/
inductive Fault where
  deriving DecidableEq, Repr

/-- Why an instruction has no meaning. -/
inductive Refusal where
  /-- Raised by no arm: every command has its meaning. It would be safe (the model would stop where the block goes on). -/
  | notModelled (mnemonic : String)
  deriving DecidableEq, Repr

/-- The state right after the reset sequence (10_state.md R30, 70_reset_and_hazards.md R111), with that sequence's trace and
no host move pending. -/
def State.reset : State where
  shadow := 0#8
  data := false
  clock := false
  latch := false
  duty := Vector.replicate 4 0#8
  en := Vector.replicate 4 false
  fault := false
  cause := 0#2
  srStage := 0#8
  srOut := 0#8
  trace := resetEvents
  host := []

end Sys2Proof.Machine
end

