-- ==== Sys2Proof/Machine/Flags.lean ====
section
/-! DEFINITION. The 1-bit state elements and what they mean: the enable bits `EN[n]` (10_state.md R20), `FAULT` and the codes
of `CAUSE` (10_state.md R17, R18). The block has no condition codes. -/

namespace Sys2Proof.Machine

/-- The fault causes: "the complete list" (60_exceptions.md R95, R96). -/
inductive FaultCause where
  /-- A Latch Register write was given a position outside 0..7 (R95). -/
  | posRange
  /-- `writeBitPair` was given `hi = lo` (R96). -/
  | pairAlias
  deriving DecidableEq, Repr

/-- The value recorded in `CAUSE` (10_state.md R18). -/
def causeCode : FaultCause → BitVec 2
  | .posRange => 1#2
  | .pairAlias => 2#2

/-- `FAULT <- 1; CAUSE <- c` (60_exceptions.md R97). -/
def setFault (c : FaultCause) (s : State) : State :=
  { s with fault := true, cause := causeCode c }

/-- `FAULT <- 0; CAUSE <- 0` (70_reset_and_hazards.md R110). -/
def clearFault (s : State) : State :=
  { s with fault := false, cause := 0#2 }

/-- `EN[n] <- v` (10_state.md R20). -/
def setEnable (n : Fin 4) (v : Bool) (s : State) : State :=
  { s with en := s.en.set n v }

/-- `DUTY[n] <- d` (10_state.md R19). -/
def setDuty (n : Fin 4) (d : Byte) (s : State) : State :=
  { s with duty := s.duty.set n d }

end Sys2Proof.Machine
end

