-- ==== Sys2Proof/Machine/Operands.lean ====
section
/-! DEFINITION. The operand guards of the Motor Controller and the bit replacement of the latch byte. A guard answers the
index or duty an operand names, or nothing where the operand is out of range (41_motor_commands.md R75, R77). -/

namespace Sys2Proof.Machine

/-- A motor index, 0..3 (41_motor_commands.md R75: `if n > 3: return`). -/
def motorIndex (n : Nat) : Option (Fin 4) :=
  if h : n < 4 then some ⟨n, h⟩ else none

/-- An output index, 0..7 (42_pin_and_global_commands.md R87: `if n > 7: return`). -/
def outputIndex (n : Nat) : Option (Fin 8) :=
  if h : n < 8 then some ⟨n, h⟩ else none

/-- A duty, 0..255: the range test is on the mathematical integer, nothing wraps or saturates (41_motor_commands.md R77). -/
def dutyOf (speed : Int) : Option Byte :=
  if 0 ≤ speed ∧ speed ≤ 255 then some (BitVec.ofInt 8 speed) else none

/-- `setbit(b, p, x)`: "the byte `b` with bit `p` replaced by `x` and all other bits unchanged" (00_scope.md R11). -/
def setbit (b : Byte) (p : Nat) (x : Bool) : Byte :=
  (b &&& ~~~(1#8 <<< p)) ||| ((BitVec.ofBool x).zeroExtend 8 <<< p)

end Sys2Proof.Machine
end

