-- ==== Sys2Proof/Config.lean ====
section
/-! DEFINITION. What is fixed for the machine and is no state (00_scope.md R10 and its section 6, 10_state.md R21, R22):
the record of configuration, and the parameters the spec leaves OPEN, each an opaque constant (92_eei_decisions.md D18, D22).
The record's VALUE stands in Machine/Wiring.lean. -/

namespace Sys2Proof

/-- The configuration record: the three wiring tables, the bus pin labels and the settling delay. -/
structure Config where
  /-- `latchBitOf[0..7]` (10_state.md R21); entry `2m` is motor `m`'s low position, entry `2m+1` its high position. -/
  latchBitOf : Vector (Fin 8) 8
  /-- `pwmPinOf[0..3]` (10_state.md R22). -/
  pwmPinOf : Vector Nat 4
  /-- `servoPinOf[0..1]` (10_state.md R22): never driven by the block. -/
  servoPinOf : Vector Nat 2
  /-- `P_DATA_PIN` (10_state.md R16). -/
  dataPin : Nat
  /-- `P_CLOCK_PIN` (10_state.md R16). -/
  clockPin : Nat
  /-- `P_LATCH_PIN` (10_state.md R16). -/
  latchPin : Nat
  /-- `P_TSETTLE_US`: "a positive integer number of microseconds" (92_eei_decisions.md D18). -/
  settleUs : ℕ+

/-- `P_TSETTLE_US`, OPEN but positive (40_latch_register.md R68; log entry 7). -/
opaque Config.openSettleUs : ℕ+

/-- `P_PWM_PIN[1]`, OPEN (92_eei_decisions.md D22; log entry 8). -/
opaque Config.openPwmPin1 : Nat
/-- `P_PWM_PIN[2]`, OPEN (log entry 8). -/
opaque Config.openPwmPin2 : Nat
/-- `P_PWM_PIN[3]`, OPEN (log entry 8). -/
opaque Config.openPwmPin3 : Nat
/-- `P_SERVO_PIN[0]`, OPEN (log entry 8). -/
opaque Config.openServoPin0 : Nat
/-- `P_SERVO_PIN[1]`, OPEN (log entry 8). -/
opaque Config.openServoPin1 : Nat
/-- `P_DATA_PIN`, OPEN (log entry 8). -/
opaque Config.openDataPin : Nat
/-- `P_CLOCK_PIN`, OPEN (log entry 8). -/
opaque Config.openClockPin : Nat
/-- `P_LATCH_PIN`, OPEN (log entry 8). -/
opaque Config.openLatchPin : Nat

end Sys2Proof
end

