-- ==== Sys2Proof/Syntax.lean ====
section
/-! DEFINITION. The commands of LMC-1, one constructor per row of spec/opcode_table.json (30_encoding.md R48, R58).
Index and speed operands are mathematical integers (00_scope.md R12: "A procedure's operands are mathematical integers");
`WellFormed` says which of them a command word can carry. -/

namespace Sys2Proof

/-- "a closed enumeration: Forward, Rewind, Stop" (10_state.md R26). -/
inductive Direction where
  | forward
  | rewind
  | stop
  deriving DecidableEq, Repr

/-- The thirteen commands, operands in the order of the source operation's parameters (30_encoding.md R58). -/
inductive Instr where
  /-- `SETDIR n, d` (41_motor_commands.md R80). -/
  | setdir (n : Nat) (d : Direction)
  /-- `SETDIRSPD n, d, speed` (41_motor_commands.md R81). -/
  | setdirspd (n : Nat) (d : Direction) (speed : Int)
  /-- `SETSPD n, speed` (41_motor_commands.md R82). -/
  | setspd (n : Nat) (speed : Int)
  /-- `SETSSPD n, s` (41_motor_commands.md R83). -/
  | setsspd (n : Nat) (speed : Int)
  /-- `BRAKE n` (41_motor_commands.md R84). -/
  | brake (n : Nat)
  /-- `RELEASE n` (41_motor_commands.md R85). -/
  | release (n : Nat)
  /-- `SETPIN n, on` (42_pin_and_global_commands.md R87). -/
  | setpin (n : Nat) (on : Bool)
  /-- `ENALL on` (42_pin_and_global_commands.md R89). -/
  | enall (on : Bool)
  /-- `ENPINS` (42_pin_and_global_commands.md R90). -/
  | enpins
  /-- `DISPINS` (42_pin_and_global_commands.md R91). -/
  | dispins
  /-- `SETALLSPD speed` (42_pin_and_global_commands.md R92). -/
  | setallspd (speed : Int)
  /-- `WRBIT pos, value` (40_latch_register.md R73). -/
  | wrbit (pos : Nat) (value : Bool)
  /-- `WRPAIR hi, lo, v` (40_latch_register.md R74). -/
  | wrpair (hi lo : Nat) (v : BitVec 2)
  deriving DecidableEq, Repr

end Sys2Proof
end

