-- ==== Sys2Proof/WellFormed.lean ====
section
/-! DEFINITION. Which operands a command word can carry: an index operand is 0..255 (30_encoding.md R50), a speed operand is
-32768..32767 (30_encoding.md R51). Directions, booleans and the 2-bit value are well-formed by their types
(30_encoding.md R49, R52). An out-of-range motor index or speed INSIDE these ranges is a well-formed command. -/

namespace Sys2Proof

/-- An index operand: "an 8-bit unsigned integer, 0..255" (30_encoding.md R50). -/
def indexFits (n : Nat) : Bool := decide (n ≤ 255)

/-- A speed operand: "a 16-bit two's-complement integer ... range -32768..32767" (30_encoding.md R51). -/
def speedFits (s : Int) : Bool := decide (-32768 ≤ s ∧ s ≤ 32767)

/-- The instruction can be written as a command word. -/
def Instr.wellFormed : Instr → Bool
  | .setdir n _ => indexFits n
  | .setdirspd n _ speed => indexFits n && speedFits speed
  | .setspd n speed => indexFits n && speedFits speed
  | .setsspd n speed => indexFits n && speedFits speed
  | .brake n => indexFits n
  | .release n => indexFits n
  | .setpin n _ => indexFits n
  | .enall _ => true
  | .enpins => true
  | .dispins => true
  | .setallspd speed => speedFits speed
  | .wrbit pos _ => indexFits pos
  | .wrpair hi lo _ => indexFits hi && indexFits lo

end Sys2Proof
end

