-- ==== Sys2Proof/Decode.lean ====
section
/-! DEFINITION. The command word: its fields (30_encoding.md R46), the opcode map (R48), the decoding procedure (R54), total
on all 2^32 words and rejecting reserved encodings by name (R55), and after it the encoder (R46, R47). -/

namespace Sys2Proof

/-! ### Direction codes -/

/-- `dirCode`: Forward = 0b10, Rewind = 0b01, Stop = 0b00 (10_state.md R26). -/
def dirCode : Direction → BitVec 2
  | .forward => 0b10#2
  | .rewind => 0b01#2
  | .stop => 0b00#2

/-- The Direction a `dir` field carries; 0b11 "is not a Direction" (30_encoding.md R49). -/
def directionOf (c : BitVec 2) : Option Direction :=
  if c = 0b10#2 then some .forward
  else if c = 0b01#2 then some .rewind
  else if c = 0b00#2 then some .stop
  else none

/-! ### Fields of a word (R46) -/

/-- `op = cmd[31:28]`. -/
def opField (w : Word) : BitVec 4 := w.extractLsb' 28 4
/-- `rsv = cmd[27:26]`. -/
def rsvField (w : Word) : BitVec 2 := w.extractLsb' 26 2
/-- `dir = cmd[25:24]`. -/
def dirField (w : Word) : BitVec 2 := w.extractLsb' 24 2
/-- `idx = cmd[23:16]`. -/
def idxField (w : Word) : BitVec 8 := w.extractLsb' 16 8
/-- `imm = cmd[15:0]`. -/
def immField (w : Word) : BitVec 16 := w.extractLsb' 0 16
/-- `lo = cmd[15:8]`. -/
def loField (w : Word) : BitVec 8 := w.extractLsb' 8 8
/-- `v = cmd[1:0]`. -/
def valField (w : Word) : BitVec 2 := w.extractLsb' 0 2
/-- `b = cmd[0]`. -/
def boolField (w : Word) : Bool := w.getLsbD 0

/-- An index operand: `n = zext(cmd[23:16])` (R50). -/
def indexOperand (w : Word) : Nat := (idxField w).toNat
/-- The second position of `WRPAIR`: `lo = zext(cmd[15:8])` (R50). -/
def loOperand (w : Word) : Nat := (loField w).toNat
/-- A speed operand: `speed = int(sext(cmd[15:0]))` (R51). -/
def speedOperand (w : Word) : Int := (immField w).toInt

/-! ### The opcode map (R48) -/

/-- The mnemonics of the opcode map, one per row. -/
inductive Opcode where
  | setdir | setdirspd | setspd | setsspd | brake | release | setpin
  | enall | enpins | dispins | setallspd | wrbit | wrpair
  deriving DecidableEq, Repr

/-- The rows in the table's order. -/
def opcodeRows : List Opcode :=
  [.setdir, .setdirspd, .setspd, .setsspd, .brake, .release, .setpin,
   .enall, .enpins, .dispins, .setallspd, .wrbit, .wrpair]

/-- The `match` column of R48. -/
def rowMatch : Opcode → Word
  | .setdir => 0x10000000#32
  | .setdirspd => 0x20000000#32
  | .setspd => 0x30000000#32
  | .setsspd => 0x40000000#32
  | .brake => 0x50000000#32
  | .release => 0x60000000#32
  | .setpin => 0x70000000#32
  | .enall => 0x80000000#32
  | .enpins => 0x90000000#32
  | .dispins => 0xA0000000#32
  | .setallspd => 0xB0000000#32
  | .wrbit => 0xC0000000#32
  | .wrpair => 0xD0000000#32

/-- The `mask` column of R48. -/
def rowMask : Opcode → Word
  | .setdir => 0xFC00FFFF#32
  | .setdirspd => 0xFC000000#32
  | .setspd => 0xFF000000#32
  | .setsspd => 0xFF000000#32
  | .brake => 0xFF00FFFF#32
  | .release => 0xFF00FFFF#32
  | .setpin => 0xFF00FFFE#32
  | .enall => 0xFFFFFFFE#32
  | .enpins => 0xFFFFFFFF#32
  | .dispins => 0xFFFFFFFF#32
  | .setallspd => 0xFFFF0000#32
  | .wrbit => 0xFF00FFFE#32
  | .wrpair => 0xFF0000FC#32

/-- `(w & mask) = match` (R48, R54). -/
def rowMatches (w : Word) (r : Opcode) : Bool := w &&& rowMask r == rowMatch r

/-! ### Decoding (R54) -/

/-- The name of a reserved encoding (R55). Where several grounds hold, the first in this order is named (log entry 11). -/
inductive Reserved where
  /-- `op` is 0x0, 0xE or 0xF. -/
  | opcode
  /-- `rsv != 0`, or a nonzero bit in a must-be-zero field of the word's format (R53). -/
  | mustBeZero
  /-- `SETDIR` or `SETDIRSPD` with `dir = 0b11` (R49). -/
  | direction
  deriving DecidableEq, Repr

/-- `op` selects no row of the map (R48, R55). -/
def opcodeReserved (w : Word) : Bool :=
  opField w == 0x0#4 || opField w == 0xE#4 || opField w == 0xF#4

/-- The fields of a word that matches row `r`, extracted per R46, R49 to R52. -/
def fieldsOf (r : Opcode) (w : Word) : Except Reserved Instr :=
  match r with
  | .setdir =>
    match directionOf (dirField w) with
    | some d => .ok (.setdir (indexOperand w) d)
    | none => .error .direction
  | .setdirspd =>
    match directionOf (dirField w) with
    | some d => .ok (.setdirspd (indexOperand w) d (speedOperand w))
    | none => .error .direction
  | .setspd => .ok (.setspd (indexOperand w) (speedOperand w))
  | .setsspd => .ok (.setsspd (indexOperand w) (speedOperand w))
  | .brake => .ok (.brake (indexOperand w))
  | .release => .ok (.release (indexOperand w))
  | .setpin => .ok (.setpin (indexOperand w) (boolField w))
  | .enall => .ok (.enall (boolField w))
  | .enpins => .ok .enpins
  | .dispins => .ok .dispins
  | .setallspd => .ok (.setallspd (speedOperand w))
  | .wrbit => .ok (.wrbit (indexOperand w) (boolField w))
  | .wrpair => .ok (.wrpair (indexOperand w) (loOperand w) (valField w))

/-- The decoding procedure of R54: the first row of the table that matches, its `dir` constraint, its fields; `Reserved`,
by name, for every other word. -/
def decode (w : Word) : Except Reserved Instr :=
  match opcodeRows.find? (rowMatches w) with
  | some r => fieldsOf r w
  | none => if opcodeReserved w then .error .opcode else .error .mustBeZero

/-! ### Encoding (R46, R47, R48) -/

/-- A word from its fields `op`, `rsv = 00`, `dir`, `idx`, `imm` (R46). -/
def wordOf (op : BitVec 4) (dir : BitVec 2) (idx : BitVec 8) (imm : BitVec 16) : Word :=
  op ++ 0#2 ++ dir ++ idx ++ imm

/-- The `idx` field of an index operand (R50). -/
def indexBits (n : Nat) : BitVec 8 := BitVec.ofNat 8 n
/-- The `imm` field of a speed operand (R51). -/
def speedBits (s : Int) : BitVec 16 := BitVec.ofInt 16 s
/-- The `imm` field of a boolean operand: `imm[15:1] = 0` (R52). -/
def boolBits (b : Bool) : BitVec 16 := 0#15 ++ BitVec.ofBool b
/-- The `imm` field of `WRPAIR`: `lo`, six zero bits, `v` (R47 format `PP`). -/
def pairBits (lo : Nat) (v : BitVec 2) : BitVec 16 := indexBits lo ++ 0#6 ++ v

/-- The word of an instruction, by its format (R47). -/
def encode : Instr → Word
  | .setdir n d => wordOf 0x1#4 (dirCode d) (indexBits n) 0#16
  | .setdirspd n d speed => wordOf 0x2#4 (dirCode d) (indexBits n) (speedBits speed)
  | .setspd n speed => wordOf 0x3#4 0#2 (indexBits n) (speedBits speed)
  | .setsspd n speed => wordOf 0x4#4 0#2 (indexBits n) (speedBits speed)
  | .brake n => wordOf 0x5#4 0#2 (indexBits n) 0#16
  | .release n => wordOf 0x6#4 0#2 (indexBits n) 0#16
  | .setpin n on => wordOf 0x7#4 0#2 (indexBits n) (boolBits on)
  | .enall on => wordOf 0x8#4 0#2 0#8 (boolBits on)
  | .enpins => wordOf 0x9#4 0#2 0#8 0#16
  | .dispins => wordOf 0xA#4 0#2 0#8 0#16
  | .setallspd speed => wordOf 0xB#4 0#2 0#8 (speedBits speed)
  | .wrbit pos value => wordOf 0xC#4 0#2 (indexBits pos) (boolBits value)
  | .wrpair hi lo v => wordOf 0xD#4 0#2 (indexBits hi) (pairBits lo v)

/-! ### The host's question -/

/-- What the decoder reads from an instruction whose bits are `w`: a command is ONE 32-bit word taken whole from the port
(R45), so the bits go to the decoder as they are, zero above `nbits` (log entry 19). -/
def decodeTableWord (nbits w : Nat) : Option Instr :=
  match decode (BitVec.ofNat 32 (w % 2 ^ nbits)) with
  | .ok i => some i
  | .error _ => none

end Sys2Proof
end

