-- ==== Sys2Proof/Machine/Wiring.lean ====
section
/-! DEFINITION. The value of the configuration (10_state.md R21, R22; 00_scope.md R10) and the wiring lookups made with it. -/

namespace Sys2Proof.Machine

/-- `latchBitOf = [3, 2, 4, 1, 7, 5, 6, 0]` (10_state.md R21, 90_conflicts.md C1). -/
def latchTable : Vector (Fin 8) 8 := #v[3, 2, 4, 1, 7, 5, 6, 0]

/-- The alternative order `[2, 3, 1, 4, 5, 7, 0, 6]` that R21 wants instantiable: put it for `latchTable` in `config`
(92_eei_decisions.md D7; log entry 18). -/
def latchTableIndexOrder : Vector (Fin 8) 8 := #v[2, 3, 1, 4, 5, 7, 0, 6]

/-- The configuration of the block: `pwmPinOf[0] = 11` (10_state.md R22), every other label and the delay OPEN. -/
def config : Config where
  latchBitOf := latchTable
  pwmPinOf := #v[11, Config.openPwmPin1, Config.openPwmPin2, Config.openPwmPin3]
  servoPinOf := #v[Config.openServoPin0, Config.openServoPin1]
  dataPin := Config.openDataPin
  clockPin := Config.openClockPin
  latchPin := Config.openLatchPin
  settleUs := Config.openSettleUs

/-- `latchBitOf[i]`, the position of output index `i` (10_state.md R21). -/
def latchBitOf (i : Fin 8) : Nat := (config.latchBitOf[i]).val

/-- `latchBitOf[2m+1]`, motor `m`'s high position (10_state.md R21). -/
def highPosition (m : Fin 4) : Nat := latchBitOf ⟨2 * m + 1, by omega⟩

/-- `latchBitOf[2m]`, motor `m`'s low position (10_state.md R21). -/
def lowPosition (m : Fin 4) : Nat := latchBitOf ⟨2 * m, by omega⟩

/-- `pwmPinOf[n]` (10_state.md R22): a label, no rule depends on it. -/
def pwmPinOf (n : Fin 4) : Nat := config.pwmPinOf[n]

/-- The length of a delay in microseconds: "nonzero", the same for every commit of a run, else OPEN (40_latch_register.md R68,
92_eei_decisions.md D18). -/
def delayUs : DelayTime → Nat
  | .settle => config.settleUs

end Sys2Proof.Machine
end

