-- ==== Sys2Proof/Machine/Ops.lean ====
section
/-! DEFINITION. The shared operations: performing an event with the environment's reaction (10_state.md R27,
40_latch_register.md R69, R70), the Latch Register's procedures (R60 to R67), the Motor Controller's procedures
(41_motor_commands.md R76 to R79, 42_pin_and_global_commands.md R88), taking a fault (60_exceptions.md R97) and the way out
of it, the reset sequence (70_reset_and_hazards.md R110). -/

namespace Sys2Proof.Machine

/-! ### Events -/

/-- `Dig(DATA, v)`: the level is driven; the environment does nothing (40_latch_register.md R69). -/
def driveData (v : Bool) (s : State) : State := { s with data := v }

/-- `Dig(CLOCK, v)`: on a change from 0 to 1, `SR_STAGE <- {SR_STAGE[6:0], DATA}` (40_latch_register.md R69). -/
def driveClock (v : Bool) (s : State) : State :=
  { s with
    clock := v
    srStage := if !s.clock && v then s.srStage.extractLsb' 0 7 ++ BitVec.ofBool s.data else s.srStage }

/-- `Dig(LATCH, v)`: on a change from 0 to 1, `SR_OUT <- SR_STAGE` (40_latch_register.md R70). -/
def driveLatch (v : Bool) (s : State) : State :=
  { s with
    latch := v
    srOut := if !s.latch && v then s.srStage else s.srOut }

/-- The effect of an event on the state, the table of 10_state.md R27. -/
def applyEvent : Event → State → State
  | .dig .data v, s => driveData v s
  | .dig .clock v, s => driveClock v s
  | .dig .latch v, s => driveLatch v s
  | .delay _, s => s
  | .pwmAna n d, s => setEnable n true (setDuty n d s)
  | .pwmGate n v, s => setEnable n v s

/-- `emit E` appends the event to the trace (00_scope.md R12). -/
def emit (e : Event) (s : State) : State := { s with trace := s.trace ++ [e] }

/-- One event happens: its effect, and its place in the trace (10_state.md R27). -/
def perform (e : Event) (s : State) : State := emit e (applyEvent e s)

/-- Events in order, the environment reacting to each before the next (20_memory.md R41). -/
def performAll (es : List Event) (s : State) : State := es.foldl (fun t e => perform e t) s

/-! ### Taking a fault -/

/-- `raise Fault(c)`: "does exactly this: FAULT <- 1, CAUSE <- c, and the current command ends" (60_exceptions.md R97). -/
def raiseFault (c : FaultCause) (s : State) : State := setFault c s

/-! ### The Latch Register -/

/-- `SHADOW <- b` (40_latch_register.md R64). -/
def setShadow (b : Byte) (s : State) : State := { s with shadow := b }

/-- `commit(b)` (40_latch_register.md R64). -/
def commit (b : Byte) (s : State) : State := performAll (commitEvents b) (setShadow b s)

/-- `if cand != SHADOW: call commit(cand)`, otherwise nothing (40_latch_register.md R60, R61, R65). -/
def commitIfChanged (cand : Byte) (s : State) : State :=
  if cand = s.shadow then s else commit cand s

/-- `writeBit(pos, value)` (40_latch_register.md R60, R62). -/
def writeBit (pos : Nat) (value : Bool) (s : State) : State :=
  if pos > 7 then raiseFault .posRange s
  else commitIfChanged (setbit s.shadow pos value) s

/-- `writeBitPair(hi, lo, v)`: `v[1]` to `hi`, `v[0]` to `lo` (40_latch_register.md R61 to R63). -/
def writeBitPair (hi lo : Nat) (v : BitVec 2) (s : State) : State :=
  if hi > 7 ∨ lo > 7 then raiseFault .posRange s
  else if hi = lo then raiseFault .pairAlias s
  else commitIfChanged (setbit (setbit s.shadow hi (v.getLsbD 1)) lo (v.getLsbD 0)) s

/-! ### The Motor Controller -/

/-- `setDirection(n, d)` (41_motor_commands.md R76). -/
def setDirection (n : Nat) (d : Direction) (s : State) : State :=
  match motorIndex n with
  | some m => writeBitPair (highPosition m) (lowPosition m) (dirCode d) s
  | none => s

/-- `setSpeed(n, speed)`: `DUTY[n] <- speed`, `EN[n] <- 1`, `PwmAna(n, speed)`, or nothing (41_motor_commands.md R77). -/
def setSpeed (n : Nat) (speed : Int) (s : State) : State :=
  match motorIndex n, dutyOf speed with
  | some m, some d => perform (.pwmAna m d) s
  | _, _ => s

/-- `setDirectionAndSpeed(n, d, speed)`: the direction first, then the speed, each with its own guard
(41_motor_commands.md R78). No command faults part-way (60_exceptions.md R101; log entry 13). -/
def setDirectionAndSpeed (n : Nat) (d : Direction) (speed : Int) (s : State) : State :=
  setSpeed n speed (setDirection n d s)

/-- `setSignedSpeed(n, s)`: the negation is on integers and does not wrap (41_motor_commands.md R79). -/
def setSignedSpeed (n : Nat) (speed : Int) (s : State) : State :=
  if speed < 0 then setDirectionAndSpeed n .rewind (-speed) s
  else setDirectionAndSpeed n .forward speed s

/-- `release(n)`: `EN[n] <- 0`, `PwmGate(n, 0)` (41_motor_commands.md R85). -/
def releaseMotor (n : Nat) (s : State) : State :=
  match motorIndex n with
  | some m => perform (.pwmGate m false) s
  | none => s

/-- `setSinglePin(n, on)` (42_pin_and_global_commands.md R87). -/
def setSinglePin (n : Nat) (on : Bool) (s : State) : State :=
  match outputIndex n with
  | some i => writeBit (latchBitOf i) on s
  | none => s

/-- `enableAll(on)` (42_pin_and_global_commands.md R88). -/
def enableAll (on : Bool) (s : State) : State := performAll (gateEvents on) s

/-- `setAllSpeed(speed)`: `setSpeed` on motors 0 to 3 (42_pin_and_global_commands.md R92). -/
def setAllSpeed (speed : Int) (s : State) : State :=
  channels.foldl (fun t (n : Fin 4) => setSpeed n speed t) s

/-! ### Reset, the only way out of a fault -/

/-- Step 1 of the reset sequence for one channel: `DUTY[n] <- 0; EN[n] <- 0; emit PwmGate(n, 0)` (70_reset_and_hazards.md R110). -/
def resetChannel (n : Fin 4) (s : State) : State := perform (.pwmGate n false) (setDuty n 0#8 s)

/-- "bus lines to their idle levels, no event" (70_reset_and_hazards.md R110). -/
def idleBus (s : State) : State := { s with data := false, clock := false, latch := false }

/-- The reset sequence (70_reset_and_hazards.md R110), from any state whatever. -/
def resetSequence (s : State) : State :=
  commit 0#8 (idleBus (channels.foldl (fun t (n : Fin 4) => resetChannel n t) (clearFault s)))

end Sys2Proof.Machine
end

