-- ==== Sys2Proof/Machine/Global.lean ====
section
/-! DEFINITION. The single-pin and global commands: `SETPIN`, `ENALL`, `ENPINS`, `DISPINS`, `SETALLSPD`
(42_pin_and_global_commands.md R87 to R92). -/

namespace Sys2Proof.Machine

/-- `SETPIN n, on` (42_pin_and_global_commands.md R87). -/
def execSetpin (n : Nat) (on : Bool) (s : State) : Host.Outcome State Fault Refusal :=
  .next (setSinglePin n on s)

/-- `ENALL on` (42_pin_and_global_commands.md R89). -/
def execEnall (on : Bool) (s : State) : Host.Outcome State Fault Refusal :=
  .next (enableAll on s)

/-- `ENPINS`: `enableAll` with `on = true` (42_pin_and_global_commands.md R90). -/
def execEnpins (s : State) : Host.Outcome State Fault Refusal :=
  .next (enableAll true s)

/-- `DISPINS`: `enableAll` with `on = false` (42_pin_and_global_commands.md R91). -/
def execDispins (s : State) : Host.Outcome State Fault Refusal :=
  .next (enableAll false s)

/-- `SETALLSPD speed` (42_pin_and_global_commands.md R92). -/
def execSetallspd (speed : Int) (s : State) : Host.Outcome State Fault Refusal :=
  .next (setAllSpeed speed s)

end Sys2Proof.Machine
end

