-- ==== Sys2Proof/Machine/Latch.lean ====
section
/-! DEFINITION. The Latch Register's commands: `WRBIT`, `WRPAIR` (40_latch_register.md R73, R74). -/

namespace Sys2Proof.Machine

/-- `WRBIT pos, value` (40_latch_register.md R73). -/
def execWrbit (pos : Nat) (value : Bool) (s : State) : Host.Outcome State Fault Refusal :=
  .next (writeBit pos value s)

/-- `WRPAIR hi, lo, v` (40_latch_register.md R74). -/
def execWrpair (hi lo : Nat) (v : BitVec 2) (s : State) : Host.Outcome State Fault Refusal :=
  .next (writeBitPair hi lo v s)

end Sys2Proof.Machine
end

