-- ==== Sys2Proof/Machine/Motor.lean ====
section
/-! DEFINITION. The per-motor commands: `SETDIR`, `SETDIRSPD`, `SETSPD`, `SETSSPD`, `BRAKE`, `RELEASE`
(41_motor_commands.md R80 to R85). -/

namespace Sys2Proof.Machine

/-- `SETDIR n, d` (41_motor_commands.md R80). -/
def execSetdir (n : Nat) (d : Direction) (s : State) : Host.Outcome State Fault Refusal :=
  .next (setDirection n d s)

/-- `SETDIRSPD n, d, speed` (41_motor_commands.md R81). -/
def execSetdirspd (n : Nat) (d : Direction) (speed : Int) (s : State) : Host.Outcome State Fault Refusal :=
  .next (setDirectionAndSpeed n d speed s)

/-- `SETSPD n, speed` (41_motor_commands.md R82). -/
def execSetspd (n : Nat) (speed : Int) (s : State) : Host.Outcome State Fault Refusal :=
  .next (setSpeed n speed s)

/-- `SETSSPD n, s` (41_motor_commands.md R83). -/
def execSetsspd (n : Nat) (speed : Int) (s : State) : Host.Outcome State Fault Refusal :=
  .next (setSignedSpeed n speed s)

/-- `BRAKE n`: `setDirectionAndSpeed(n, Stop, 255)` (41_motor_commands.md R84). -/
def execBrake (n : Nat) (s : State) : Host.Outcome State Fault Refusal :=
  .next (setDirectionAndSpeed n .stop 255 s)

/-- `RELEASE n` (41_motor_commands.md R85). -/
def execRelease (n : Nat) (s : State) : Host.Outcome State Fault Refusal :=
  .next (releaseMotor n s)

end Sys2Proof.Machine
end

