-- ==== Sys2Proof/Machine/Dispatch.lean ====
section
/-! DEFINITION. One arm per command. `exec` is what a command does once the block executes it; that a halted block executes
none is the port's business (Machine/Port.lean, 60_exceptions.md R98; log entry 16). -/

namespace Sys2Proof.Machine

def exec (i : Instr) (s : State) : Host.Outcome State Fault Refusal :=
  match i with
  | .setdir n d => Sys2Proof.Machine.execSetdir n d s
  | .setdirspd n d speed => Sys2Proof.Machine.execSetdirspd n d speed s
  | .setspd n speed => Sys2Proof.Machine.execSetspd n speed s
  | .setsspd n speed => Sys2Proof.Machine.execSetsspd n speed s
  | .brake n => Sys2Proof.Machine.execBrake n s
  | .release n => Sys2Proof.Machine.execRelease n s
  | .setpin n on => Sys2Proof.Machine.execSetpin n on s
  | .enall on => Sys2Proof.Machine.execEnall on s
  | .enpins => Sys2Proof.Machine.execEnpins s
  | .dispins => Sys2Proof.Machine.execDispins s
  | .setallspd speed => Sys2Proof.Machine.execSetallspd speed s
  | .wrbit pos value => Sys2Proof.Machine.execWrbit pos value s
  | .wrpair hi lo v => Sys2Proof.Machine.execWrpair hi lo v s

end Sys2Proof.Machine
end

