-- ==== Sys2Proof/Machine/Port.lean ====
section
/-! DEFINITION. The command port and the reset input: what the block does with each of the host's moves
(30_encoding.md R45, R54, R56; 60_exceptions.md R98; 70_reset_and_hazards.md R109, R117). -/

namespace Sys2Proof.Machine

/-- A command word is accepted: discarded while the block is halted, "whatever it decodes to" (60_exceptions.md R98), a
no-op where it is reserved (30_encoding.md R56), executed otherwise. -/
def acceptWord (w : Word) (s : State) : Host.Outcome State Fault Refusal :=
  if s.fault then .next s
  else
    match decode w with
    | .ok i => exec i s
    | .error _ => .next s

/-- A command of the `enableAll` family, whose four writes "are one indivisible step" (42_pin_and_global_commands.md R88). -/
def enablesAll : Instr → Bool
  | .setdir _ _ => false
  | .setdirspd _ _ _ => false
  | .setspd _ _ => false
  | .setsspd _ _ => false
  | .brake _ => false
  | .release _ => false
  | .setpin _ _ => false
  | .enall _ => true
  | .enpins => true
  | .dispins => true
  | .setallspd _ => false
  | .wrbit _ _ => false
  | .wrpair _ _ _ => false

/-- Of the events `es` of the word `w`, those that happened by the `k`-th: the first `k`, but for the four writes of the
`enableAll` family, which have all happened or none, so that no trace shows their order
(42_pin_and_global_commands.md R88; 92_eei_decisions.md D20; log entry 5). -/
def keptEvents (w : Word) (k : Nat) (es : List Event) : List Event :=
  match decode w with
  | .ok i => if enablesAll i && decide (k < channels.length) then [] else es.take k
  | .error _ => es.take k

/-- The events of the abandoned command that happened before the reset stay in the trace; every other element is what it
was, and the reset sequence writes it next (70_reset_and_hazards.md R109; log entry 5). -/
def abandonAfter (w : Word) (k : Nat) (before after : State) : State :=
  { before with trace := before.trace ++ keptEvents w k (after.trace.drop before.trace.length) }

/-- One move of the host. -/
def hostMove (m : HostMove) (s : State) : Host.Outcome State Fault Refusal :=
  match m with
  | .command w => acceptWord w s
  | .reset => .next (resetSequence s)
  | .resetDuring w k =>
    match acceptWord w s with
    | .next t => .next (resetSequence (abandonAfter w k s t))
    | .fault r => .fault r
    | .refused r => .refused r

/-- The next move of the host, or none: then the block "is idle with all outputs held" (60_exceptions.md R108). -/
def portStep (s : State) : Host.Outcome State Fault Refusal :=
  match s.host with
  | [] => .next s
  | m :: rest => hostMove m { s with host := rest }

/-- The host's next move is the command word `w` (log entry 3). -/
def presentWord (w : Word) (s : State) : State := { s with host := .command w :: s.host }

end Sys2Proof.Machine
end

