-- ==== Sys2Proof/Machine/Views.lean ====
section
/-! DEFINITION. What the pins show and the per-motor view: derived, not stored, and read by no command
(10_state.md R20, R24, R26, R28; 92_eei_decisions.md D26). -/

namespace Sys2Proof.Machine

/-- The duty cycle channel `n` presents at its pin: `DUTY[n]` if `EN[n] = 1`, else 0 (10_state.md R20). -/
def pwmOut (s : State) (n : Fin 4) : Byte := if s.en[n] then s.duty[n] else 0#8

/-- The `FAULT` output wire, "the only thing the host can observe of the block's internal state" (10_state.md R17). -/
def faultWire (s : State) : Bool := s.fault

/-- The `cmd_ready` output at a command boundary: the port is ready for the next word, in the halted state too, where words
are "accepted and discarded"; it is 0 only inside a command or the reset sequence, and those are one step each
(30_encoding.md R45, 60_exceptions.md R98, 70_reset_and_hazards.md R114, R118; 92_eei_decisions.md D2; log entry 1). -/
def cmdReady (_s : State) : Bool := true

/-- The level of the external register's parallel output `p` (10_state.md R24). -/
def parallelOutput (s : State) (p : Fin 8) : Bool := s.srOut.getLsbD p

/-- `dirbits(m)` of a byte: its high bit, then its low bit (10_state.md R26). -/
def pairOf (b : Byte) (m : Fin 4) : BitVec 2 :=
  BitVec.ofBool (b.getLsbD (highPosition m)) ++ BitVec.ofBool (b.getLsbD (lowPosition m))

/-- `dirbits(m) = {SHADOW[latchBitOf[2m+1]], SHADOW[latchBitOf[2m]]}` (10_state.md R26). -/
def dirbits (s : State) (m : Fin 4) : BitVec 2 := pairOf s.shadow m

/-- The conceptual state of a motor (10_state.md R28); no direction where `dirbits = 0b11`, "the code of no Direction". -/
structure MotorView where
  /-- The Direction whose code equals `dirbits(m)`. -/
  direction : Option Direction
  /-- `DUTY[m]`. -/
  speed : Byte
  /-- `EN[m]`. -/
  enabled : Bool
  deriving DecidableEq, Repr

/-- The per-motor view (10_state.md R28). -/
def motorView (s : State) (m : Fin 4) : MotorView where
  direction := directionOf (dirbits s m)
  speed := s.duty[m]
  enabled := s.en[m]

/-- What the source says a motor does; INFORMATIVE (10_state.md R28, 92_eei_decisions.md D26; log entry 15). -/
inductive Drive where
  /-- "motor coasts (high impedance) rather than brakes". -/
  | released
  /-- Driven `Forward` at that duty. -/
  | forward (duty : Byte)
  /-- Driven `Rewind` at that duty. -/
  | rewind (duty : Byte)
  /-- "conducting brake", at full duty; the source's own open question (93_implementation_defined.md U3). -/
  | braked
  /-- "not stated by the source" (91_not_in_source.md N12): any behaviour. -/
  | notStated
  deriving DecidableEq, Repr

/-- The table of 10_state.md R28, over `PWMOUT[m]` and the register's outputs. -/
def driveOf (s : State) (m : Fin 4) : Drive :=
  if pwmOut s m = 0#8 then .released
  else if pairOf s.srOut m = 0b10#2 then .forward (pwmOut s m)
  else if pairOf s.srOut m = 0b01#2 then .rewind (pwmOut s m)
  else if pairOf s.srOut m = 0b00#2 ∧ pwmOut s m = 255#8 then .braked
  else .notStated

end Sys2Proof.Machine
end

