-- ==== Sys2Proof/Safety.lean ====
section
/-! DEFINITION. What claims about runs are stated in: the invariants of the state at command boundaries, a run without a
fault, the pins alone, and a run over a list of the host's moves. -/

namespace Sys2Proof.Safety

open Sys2Proof.Machine

/-- The byte the trace last put on the outputs: the trace ends with the commit of `b`, and only PWM events come after it. -/
def LastLatched (b : Byte) (trace : List Event) : Prop :=
  ∃ before after, trace = before ++ commitEvents b ++ after ∧ ∀ e ∈ after, e.isBus = false

/-- The latch register at a command boundary: `SHADOW` "always equals the last value physically latched" (10_state.md R14),
on the outputs and in the trace, the stage holds it too (40_latch_register.md R71), and the bus lines are at the levels of
10_state.md R16 and 40_latch_register.md R72. -/
structure BusSettled (s : State) : Prop where
  /-- 10_state.md R14. -/
  outputs : s.srOut = s.shadow
  /-- 40_latch_register.md R71. -/
  stage : s.srStage = s.shadow
  /-- 10_state.md R16. -/
  clockLow : s.clock = false
  /-- 10_state.md R16. -/
  latchLow : s.latch = false
  /-- "bit 0 of the last committed byte" (10_state.md R16). -/
  dataLast : s.data = s.shadow.getLsbD 0
  /-- 10_state.md R14, in the trace. -/
  lastLatched : LastLatched s.shadow s.trace

/-- `CAUSE` names the fault there is, and 3 is never written (10_state.md R17, R18). -/
def CauseLegal (s : State) : Prop :=
  (s.fault = false ∧ s.cause = 0#2) ∨
  (s.fault = true ∧ (s.cause = causeCode .posRange ∨ s.cause = causeCode .pairAlias))

/-- Whether an event wrote channel `n`'s pin on or off, and which (10_state.md R27). -/
def enableWrite (n : Fin 4) : Event → Option Bool
  | .pwmAna m _ => if m = n then some true else none
  | .pwmGate m v => if m = n then some v else none
  | .dig _ _ => none
  | .delay _ => none

/-- Every `EN[n]` is what the trace's last write of that pin said: "was the last write to this pin an analog write or an on"
(92_eei_decisions.md D14). -/
def EnablesFollowTrace (s : State) : Prop :=
  ∀ n : Fin 4, (s.trace.filterMap (enableWrite n)).getLast? = some s.en[n]

/-- A run is safe so far where no fault has been taken: "A model should treat the faulted state as never final"
(60_exceptions.md R98). -/
def NoFault (s : State) : Prop := s.fault = false

/-- What the environment sees of the block: the bus lines, the external register and the PWM channels. -/
structure Pins where
  data : Bool
  clock : Bool
  latch : Bool
  srStage : Byte
  srOut : Byte
  duty : Vector Byte 4
  en : Vector Bool 4
  deriving DecidableEq, Repr

/-- The pins of a state. -/
def pinsOf (s : State) : Pins where
  data := s.data
  clock := s.clock
  latch := s.latch
  srStage := s.srStage
  srOut := s.srOut
  duty := s.duty
  en := s.en

/-- An event's effect on the pins, written out from the table of 10_state.md R27 with 40_latch_register.md R69 and R70: what
an observer who sees only the events computes. -/
def eventOnPins (p : Pins) : Event → Pins
  | .dig .data v => { p with data := v }
  | .dig .clock v =>
    if p.clock = false ∧ v = true then
      { p with clock := v, srStage := (p.srStage <<< 1) ||| (if p.data then 1#8 else 0#8) }
    else { p with clock := v }
  | .dig .latch v =>
    if p.latch = false ∧ v = true then { p with latch := v, srOut := p.srStage } else { p with latch := v }
  | .delay _ => p
  | .pwmAna n d => { p with duty := p.duty.set n d, en := p.en.set n true }
  | .pwmGate n v => { p with en := p.en.set n v }

/-- The state but for the external register's contents: what the block itself holds (00_scope.md R7). -/
def forgetRegister (s : State) : State := { s with srStage := 0#8, srOut := 0#8 }

/-! ### The spec's results, written out for the statements -/

/-- The bus at rest, as it is at every command boundary: `CLOCK = 0`, `LATCH = 0` (10_state.md R16); part of `BusSettled`. -/
def BusIdle (s : State) : Prop := s.clock = false ∧ s.latch = false

/-- The positions `(hi, lo)` of a motor: "motor 0 (hi, lo) = (2, 3), motor 1 (1, 4), motor 2 (5, 7), motor 3 (0, 6)"
(41_motor_commands.md R76). -/
def pairPositions (m : Fin 4) : Nat × Nat := #v[(2, 3), (1, 4), (5, 7), (0, 6)][m]

/-- The position of an output: "output index 0 is position 3, 1 is 2, 2 is 4, 3 is 1, 4 is 7, 5 is 5, 6 is 6, 7 is 0"
(42_pin_and_global_commands.md R87). -/
def outputPosition (i : Fin 8) : Nat := #v[3, 2, 4, 1, 7, 5, 6, 0][i]

/-- What is left of `s` when the byte `b` is wanted: nothing happens where `SHADOW` holds it (20_memory.md R38), else one
commit and its net effect (40_latch_register.md R64, R71, R72). -/
def latched (b : Byte) (s : State) : State :=
  if b = s.shadow then s
  else { s with shadow := b, data := b.getLsbD 0, srStage := b, srOut := b, trace := s.trace ++ commitEvents b }

/-- `DUTY[m] <- d`, `EN[m] <- 1`, `PwmAna(m, d)` (41_motor_commands.md R77). -/
def analogWritten (m : Fin 4) (d : Byte) (s : State) : State :=
  { s with duty := s.duty.set m d, en := s.en.set m true, trace := s.trace ++ [.pwmAna m d] }

/-- The speed part of a command: written where the integer is in 0..255, dropped otherwise (41_motor_commands.md R77). -/
def speedWritten (m : Fin 4) (x : Int) (s : State) : State :=
  if x < 0 ∨ x > 255 then s else analogWritten m (BitVec.ofNat 8 x.toNat) s

/-- `c` is the byte `b` with motor `m`'s pair replaced by the code of `d`, every other bit as it was (41_motor_commands.md R76,
42_pin_and_global_commands.md R93). -/
def PairReplaced (m : Fin 4) (d : Direction) (b c : Byte) : Prop :=
  c.getLsbD (pairPositions m).1 = (dirCode d).getLsbD 1 ∧
  c.getLsbD (pairPositions m).2 = (dirCode d).getLsbD 0 ∧
  ∀ p, p < 8 → p ≠ (pairPositions m).1 → p ≠ (pairPositions m).2 → c.getLsbD p = b.getLsbD p

/-- `c` is the byte `b` with position `pos` replaced by `v`, every other bit as it was (40_latch_register.md R60). -/
def BitReplaced (pos : Nat) (v : Bool) (b c : Byte) : Prop :=
  c.getLsbD pos = v ∧ ∀ p, p < 8 → p ≠ pos → c.getLsbD p = b.getLsbD p

/-! ### Counting commits over a run -/

/-- How many latch pulses a trace shows: its `Dig(LATCH, 1)` events (40_latch_register.md R65). -/
def latchPulses (trace : List Event) : Nat := trace.countP (· == .dig .latch true)

/-- How many of the next `k` steps change `SHADOW`, up to a stop if there were one: the writes whose candidate "differed from
SHADOW" (40_latch_register.md R65). -/
def changesAlong : Nat → State → Nat
  | 0, _ => 0
  | k + 1, s =>
    match step s with
    | .next t => (if t.shadow = s.shadow then 0 else 1) + changesAlong k t
    | .fault _ => 0
    | .refused _ => 0

/-- The host's moves to come are command words, no reset among them. -/
def CommandsOnly (s : State) : Prop := ∃ ws : List Word, s.host = ws.map HostMove.command

end Sys2Proof.Safety
end

