-- ==== Sys2Proof/Certificates/Slice0/Obligations.lean ====
section
/-! DEFINITION. The statements for the provers. Each docstring names the rules of spec/ it formalises; where a clause rests on a
decision of the spec's own (92_eei_decisions.md) or on the model's log, it says so. `exec` is what a command does once the
block executes it; `step` adds the port, the halted state and reset. -/

open Sys2Proof Sys2Proof.Machine Sys2Proof.Safety

/-! ### Encoding and decoding -/

/-- Decoding the word of a well-formed instruction gives it back, for every command and every operand a word can carry
(30_encoding.md R46 to R54). -/
def Obligations.DecodeInvertsEncode : Prop :=
  ∀ i : Instr, i.wellFormed = true → decode (encode i) = .ok i

/-- Each word has one meaning: what a word decodes to is well-formed and encodes to that very word, so no bit of the word is
dropped (30_encoding.md R46, R47, R53, R54). -/
def Obligations.EncodeInvertsDecode : Prop :=
  ∀ (w : Word) (i : Instr), decode w = .ok i → i.wellFormed = true ∧ encode i = w

/-- "At most one row can match" (30_encoding.md R54). -/
def Obligations.OpcodeRowsExclusive : Prop :=
  ∀ (w : Word) (r r' : Opcode), rowMatches w r = true → rowMatches w r' = true → r = r'

/-- The reserved encodings are exactly those of 30_encoding.md R55: a reserved `op`, `rsv != 0`, a nonzero bit in a must-be-zero
field of the format (R47, R53), and `dir = 0b11` in `SETDIR` and `SETDIRSPD` (R49). D5 and D6 are the spec's own decisions. -/
def Obligations.DecodeRejectsExactlyReserved : Prop :=
  ∀ w : Word,
    let op := w.extractLsb' 28 4
    let dir := w.extractLsb' 24 2
    let idx := w.extractLsb' 16 8
    let imm := w.extractLsb' 0 16
    (∃ r, decode w = .error r) ↔
      (op = 0x0#4 ∨ op = 0xE#4 ∨ op = 0xF#4) ∨
      w.extractLsb' 26 2 ≠ 0#2 ∨
      (op = 0x1#4 ∧ imm ≠ 0#16) ∨
      ((op = 0x3#4 ∨ op = 0x4#4) ∧ dir ≠ 0#2) ∨
      ((op = 0x5#4 ∨ op = 0x6#4) ∧ (dir ≠ 0#2 ∨ imm ≠ 0#16)) ∨
      ((op = 0x7#4 ∨ op = 0xC#4) ∧ (dir ≠ 0#2 ∨ w.extractLsb' 1 15 ≠ 0#15)) ∨
      (op = 0x8#4 ∧ (dir ≠ 0#2 ∨ idx ≠ 0#8 ∨ w.extractLsb' 1 15 ≠ 0#15)) ∨
      ((op = 0x9#4 ∨ op = 0xA#4) ∧ (dir ≠ 0#2 ∨ idx ≠ 0#8 ∨ imm ≠ 0#16)) ∨
      (op = 0xB#4 ∧ (dir ≠ 0#2 ∨ idx ≠ 0#8)) ∨
      (op = 0xD#4 ∧ (dir ≠ 0#2 ∨ w.extractLsb' 2 6 ≠ 0#6)) ∨
      ((op = 0x1#4 ∨ op = 0x2#4) ∧ dir = 0b11#2)

/-- The words of 30_encoding.md section 8, one of every command, decode to the commands they stand for, and its three reserved
words to none. -/
def Obligations.SpecWordsDecode : Prop :=
  decode 0x12000000#32 = .ok (.setdir 0 .forward) ∧
  decode 0x22000080#32 = .ok (.setdirspd 0 .forward 128) ∧
  decode 0x30010100#32 = .ok (.setspd 1 256) ∧
  decode 0x4002FFCE#32 = .ok (.setsspd 2 (-50)) ∧
  decode 0x50010000#32 = .ok (.brake 1) ∧
  decode 0x60010000#32 = .ok (.release 1) ∧
  decode 0x70070001#32 = .ok (.setpin 7 true) ∧
  decode 0x80000001#32 = .ok (.enall true) ∧
  decode 0x90000000#32 = .ok .enpins ∧
  decode 0xA0000000#32 = .ok .dispins ∧
  decode 0xB00000C8#32 = .ok (.setallspd 200) ∧
  decode 0xC0050001#32 = .ok (.wrbit 5 true) ∧
  decode 0xD0020302#32 = .ok (.wrpair 2 3 0b10#2) ∧
  decode 0x13000000#32 = .error .direction ∧
  decode 0x50010001#32 = .error .mustBeZero ∧
  decode 0x00000000#32 = .error .opcode

/-! ### The port: what a step does -/

/-- A step runs the decoded command: a word that decodes, presented to a running block, is executed, and the host's later moves
stay as they were; `withFetchWord` presents exactly such a word (30_encoding.md R45, R54). The list of moves is the model's
(log entries 1, 3). -/
def Obligations.StepRunsDecodedCommand : Prop :=
  (∀ (s : State) (w : Word) (rest : List HostMove) (i : Instr),
    s.host = .command w :: rest → s.fault = false → decode w = .ok i →
      step s = exec i { s with host := rest }) ∧
  (∀ (s : State) (nbits w : Nat) (i : Instr),
    s.fault = false → decodeTableWord nbits w = some i → step (s.withFetchWord nbits w) = exec i s)

/-- "A reserved encoding is executed as a no-op: no state changes, no event is emitted, FAULT is not set, and the block is ready
for the next command" (30_encoding.md R56, the spec's decision D5). -/
def Obligations.ReservedWordDoesNothing : Prop :=
  ∀ (s : State) (w : Word) (rest : List HostMove) (r : Reserved),
    s.host = .command w :: rest → decode w = .error r → step s = .next { s with host := rest }

/-- A halted block accepts every word and discards it, "whatever it decodes to", and the pins keep their levels, however many
words come (60_exceptions.md R98, R99; the spec's decision D11). -/
def Obligations.HaltedBlockDiscardsWords : Prop :=
  ∀ (ws : List Word) (s : State) (rest : List HostMove),
    s.fault = true → s.host = ws.map HostMove.command ++ rest →
      Sys2Proof.core.run ws.length s = .next { s with host := rest }

/-- `FAULT` is sticky, and `CAUSE` with it: a step from a halted state keeps both, unless the host's move is a reset, which
clears both (10_state.md R17, 60_exceptions.md R99; the spec's decision D11). -/
def Obligations.FaultLeftOnlyByReset : Prop :=
  ∀ s t : State, s.fault = true → step s = .next t →
    (t.fault = true ∧ t.cause = s.cause) ∨
    (t.fault = false ∧ t.cause = 0#2 ∧
      ∃ rest, s.host = .reset :: rest ∨ ∃ w k, s.host = .resetDuring w k :: rest)

/-- Between commands the block "is idle with all outputs held" (60_exceptions.md R108). That a step without a move of the host
is such a moment is the model's reading (log entry 4). -/
def Obligations.IdleBlockHolds : Prop :=
  ∀ s : State, s.host = [] → step s = .next s

/-- "all operations are unconditional and complete immediately": no step stops, from any state, on any move of the host
(00_scope.md R8, R9). That a fault taken is itself a next state is the model's reading of 60_exceptions.md R97, R98 (log
entry 10). -/
def Obligations.EveryStepCompletes : Prop :=
  ∀ s : State, ∃ t, step s = .next t

/-- Program order: a step takes the host's first move and leaves the others, and the trace only grows at its end
(20_memory.md R41). The two lists are the model's (log entries 1, 2). -/
def Obligations.CommandsTakeEffectInOrder : Prop :=
  ∀ s t : State, step s = .next t → t.host = s.host.tail ∧ ∃ es, t.trace = s.trace ++ es

/-! ### Reset -/

/-- The state right after reset (10_state.md R30, 70_reset_and_hazards.md R111), with the 32 events of the reset sequence (R110)
as its trace. No host move pending is the model's own (log entry 1). -/
def Obligations.ResetStateValues : Prop :=
  State.reset.shadow = 0x00#8 ∧ State.reset.srStage = 0x00#8 ∧ State.reset.srOut = 0x00#8 ∧
  State.reset.data = false ∧ State.reset.clock = false ∧ State.reset.latch = false ∧
  State.reset.fault = false ∧ State.reset.cause = 0#2 ∧
  (∀ n : Fin 4, State.reset.duty[n] = 0#8 ∧ State.reset.en[n] = false ∧ pwmOut State.reset n = 0#8 ∧
    motorView State.reset n = { direction := some .stop, speed := 0#8, enabled := false }) ∧
  State.reset.trace =
    [.pwmGate 0 false, .pwmGate 1 false, .pwmGate 2 false, .pwmGate 3 false] ++
    (List.replicate 8 [.dig .data false, .dig .clock true, .dig .clock false]).flatten ++
    [.delay .settle, .dig .latch true, .dig .latch false, .delay .settle] ∧
  State.reset.trace.length = 32 ∧
  State.reset.host = []

/-- The reset sequence, "from any state whatever" (halted, mid-pulse, with any content of the external register), leaves the
state of R111 and emits its 32 events (70_reset_and_hazards.md R109 to R111; the spec's decision D19). -/
def Obligations.ResetFromAnyState : Prop :=
  ∀ (s : State) (rest : List HostMove), s.host = .reset :: rest →
    step s = .next { State.reset with trace := s.trace ++ State.reset.trace, host := rest }

/-- "A reset asserted during a command abandons that command": what follows is the reset sequence's state, and only a first
part of the command's events is in the trace (70_reset_and_hazards.md R109): the first `k`, but of the `enableAll` family,
whose four writes are "one indivisible step", all four or none (42_pin_and_global_commands.md R88). How much of it, is the
model's reading (log entry 5). -/
def Obligations.ResetAbandonsCommand : Prop :=
  ∀ (s : State) (w : Word) (k : Nat) (rest : List HostMove), s.host = .resetDuring w k :: rest →
    ∃ (u : State) (es kept : List Event),
      acceptWord w { s with host := rest } = .next u ∧ u.trace = s.trace ++ es ∧
      step s = .next { State.reset with trace := s.trace ++ kept ++ State.reset.trace, host := rest } ∧
      ((∃ on, decode w = .ok (.enall on)) ∨ decode w = .ok .enpins ∨ decode w = .ok .dispins →
        kept = if k < 4 then [] else es) ∧
      ((∀ on, decode w ≠ .ok (.enall on)) ∧ decode w ≠ .ok .enpins ∧ decode w ≠ .ok .dispins → kept = es.take k)

/-- "all PWM pins explicitly disabled before the latch is cleared": whatever the pins are at power-up, while the reset events
have not reached the latch pulse the outputs are what they were, and once its first four events are done every channel is
off, so stale outputs meet no enabled channel (70_reset_and_hazards.md R110, R112). -/
def Obligations.ResetDisablesBeforeLatchClears : Prop :=
  ∀ (p : Pins) (k : Nat),
    (k ≤ 29 → ((State.reset.trace.take k).foldl eventOnPins p).srOut = p.srOut) ∧
    (4 ≤ k → ∀ n : Fin 4, ((State.reset.trace.take k).foldl eventOnPins p).en[n] = false)

/-! ### The Latch Register -/

/-- The bits of a committed byte appear on `DATA` in the order `b[7], ..., b[0]` (20_memory.md R34), and the clock is pulsed
once per bit, high then low (40_latch_register.md R67; the pulse's polarity is the spec's decision D16). -/
def Obligations.WireOrderIsMostSignificantFirst : Prop :=
  ∀ b : Byte,
    (commitEvents b).filterMap (fun e => match e with
      | .dig .data v => some v
      | _ => none) =
    [b.getLsbD 7, b.getLsbD 6, b.getLsbD 5, b.getLsbD 4, b.getLsbD 3, b.getLsbD 2, b.getLsbD 1, b.getLsbD 0] ∧
    (commitEvents b).filterMap (fun e => match e with
      | .dig .clock v => some v
      | _ => none) = (List.replicate 8 [true, false]).flatten

/-- The 28 events of a commit, each bit set before its clock pulse, the latch pulse between two delays of the same positive
length (40_latch_register.md R64, R67, R68, R72; the expansion of the shift-out is the spec's decision D16, the delay D18). -/
def Obligations.CommitEventSequence : Prop :=
  (∀ b : Byte, commitEvents b =
    [.dig .data (b.getLsbD 7), .dig .clock true, .dig .clock false,
     .dig .data (b.getLsbD 6), .dig .clock true, .dig .clock false,
     .dig .data (b.getLsbD 5), .dig .clock true, .dig .clock false,
     .dig .data (b.getLsbD 4), .dig .clock true, .dig .clock false,
     .dig .data (b.getLsbD 3), .dig .clock true, .dig .clock false,
     .dig .data (b.getLsbD 2), .dig .clock true, .dig .clock false,
     .dig .data (b.getLsbD 1), .dig .clock true, .dig .clock false,
     .dig .data (b.getLsbD 0), .dig .clock true, .dig .clock false,
     .delay .settle, .dig .latch true, .dig .latch false, .delay .settle]) ∧
  0 < delayUs .settle

/-- `commit(b)` from a bus at rest: the byte stored, in the stage and on the outputs, `DATA` at its last bit, `CLOCK` and
`LATCH` low again, its 28 events in the trace (24 of the shift-out, then the pulse between its delays), nothing else changed,
for every prior content of the external register (40_latch_register.md R64). -/
def Obligations.CommitLatchesTheByte : Prop :=
  ∀ (b : Byte) (s : State), BusIdle s →
    commit b s =
      { s with shadow := b, data := b.getLsbD 0, clock := false, latch := false, srStage := b, srOut := b,
               trace := s.trace ++ commitEvents b } ∧
    (commitEvents b).length = 28 ∧ (shiftEvents b).length = 24 ∧
    commitEvents b = shiftEvents b ++ [.delay .settle, .dig .latch true, .dig .latch false, .delay .settle]

/-- "no intermediate invalid state is ever latched": event by event, the outputs hold the old byte up to the latch pulse and the
new byte from it on, so both bits of a pair change together (40_latch_register.md R66, 20_memory.md R37). -/
def Obligations.OutputsChangeOnlyAtThePulse : Prop :=
  ∀ (b : Byte) (s : State) (k : Nat), BusIdle s →
    (performAll ((commitEvents b).take k) (setShadow b s)).srOut = if k ≤ 25 then s.srOut else b

/-- The external register moves on rising edges only: the stage takes `DATA` in at bit 0 when `CLOCK` goes from 0 to 1, the
outputs take the stage when `LATCH` goes from 0 to 1, and no other event moves either (10_state.md R23, R24,
40_latch_register.md R69, R70; the spec's decision D17). -/
def Obligations.RegisterMovesOnRisingEdges : Prop :=
  ∀ (e : Event) (s : State),
    (perform e s).srStage =
      (if e = .dig .clock true ∧ s.clock = false then (s.srStage <<< 1) ||| (if s.data then 1#8 else 0#8) else s.srStage) ∧
    (perform e s).srOut = (if e = .dig .latch true ∧ s.latch = false then s.srStage else s.srOut)

/-- `WRBIT`, a position in range: the bit is replaced and nothing else, by one commit where the byte changes and by nothing
where it does not (40_latch_register.md R60, R73). -/
def Obligations.WrbitReplacesOneBit : Prop :=
  ∀ (pos : Nat) (v : Bool) (s : State), pos ≤ 7 → BusIdle s →
    ∃ c : Byte, exec (.wrbit pos v) s = .next (latched c s) ∧ BitReplaced pos v s.shadow c

/-- `WRPAIR`, two different positions in range, in either order: `v[1]` to `hi`, `v[0]` to `lo`, by at most one commit
(40_latch_register.md R61, R74). -/
def Obligations.WrpairReplacesTwoBits : Prop :=
  ∀ (hi lo : Nat) (v : BitVec 2) (s : State), hi ≤ 7 → lo ≤ 7 → hi ≠ lo → BusIdle s →
    ∃ c : Byte, exec (.wrpair hi lo v) s = .next (latched c s) ∧
      c.getLsbD hi = v.getLsbD 1 ∧ c.getLsbD lo = v.getLsbD 0 ∧
      ∀ p, p < 8 → p ≠ hi → p ≠ lo → c.getLsbD p = s.shadow.getLsbD p

/-- Where the two Latch Register commands fault, what the fault is, and that nothing but `FAULT` and `CAUSE` changes; the range
check comes first (40_latch_register.md R62, R63, 60_exceptions.md R95 to R97, R100, R101; the spec's decisions D11, D12). -/
def Obligations.PositionFaultsAreTaken : Prop :=
  (∀ (pos : Nat) (v : Bool) (s : State), 7 < pos →
    exec (.wrbit pos v) s = .next { s with fault := true, cause := 1#2 }) ∧
  (∀ (hi lo : Nat) (v : BitVec 2) (s : State), 7 < hi ∨ 7 < lo →
    exec (.wrpair hi lo v) s = .next { s with fault := true, cause := 1#2 }) ∧
  (∀ (p : Nat) (v : BitVec 2) (s : State), p ≤ 7 →
    exec (.wrpair p p v) s = .next { s with fault := true, cause := 2#2 })

/-! ### The Motor Controller -/

/-- `SETDIR`: the pair of the motor takes the direction's code, high position first, by at most one commit; with an index
above 3 nothing (41_motor_commands.md R76). -/
def Obligations.SetdirWritesThePair : Prop :=
  (∀ (m : Fin 4) (d : Direction) (s : State), BusIdle s →
    ∃ c : Byte, exec (.setdir m d) s = .next (latched c s) ∧ PairReplaced m d s.shadow c) ∧
  (∀ (n : Nat) (d : Direction) (s : State), 3 < n → exec (.setdir n d) s = .next s)

/-- `SETSPD`: duty, enable and event where index and speed are in range, nothing where either is not (41_motor_commands.md R77,
R82; the spec's decisions D14, D27). -/
def Obligations.SetspdWritesTheChannel : Prop :=
  (∀ (m : Fin 4) (x : Int) (s : State), exec (.setspd m x) s = .next (speedWritten m x s)) ∧
  (∀ (n : Nat) (x : Int) (s : State), 3 < n → exec (.setspd n x) s = .next s)

/-- `SETDIRSPD`: the direction, then the speed, each with its own guard: with a speed out of range the direction is still
written, with an index above 3 neither (41_motor_commands.md R78). -/
def Obligations.SetdirspdWritesDirectionThenSpeed : Prop :=
  (∀ (m : Fin 4) (d : Direction) (x : Int) (s : State), BusIdle s →
    ∃ c : Byte, exec (.setdirspd m d x) s = .next (speedWritten m x (latched c s)) ∧ PairReplaced m d s.shadow c) ∧
  (∀ (n : Nat) (d : Direction) (x : Int) (s : State), 3 < n → exec (.setdirspd n d x) s = .next s)

/-- `SETSSPD`: the direction from the sign (0 is Forward), the speed from the magnitude, which does not wrap; with an index
above 3 nothing (41_motor_commands.md R79, R83; the spec's decision D27). -/
def Obligations.SetsspdFollowsTheSign : Prop :=
  (∀ (m : Fin 4) (x : Int) (s : State), BusIdle s →
    ∃ c : Byte, exec (.setsspd m x) s = .next (speedWritten m x.natAbs (latched c s)) ∧
      PairReplaced m (if x < 0 then .rewind else .forward) s.shadow c) ∧
  (∀ (n : Nat) (x : Int) (s : State), 3 < n → exec (.setsspd n x) s = .next s)

/-- "if negative, `setDirectionAndSpeed(n, Rewind, -signedSpeed)`; else `setDirectionAndSpeed(n, Forward, signedSpeed)`", for
every index and every integer (41_motor_commands.md R79). -/
def Obligations.SignedSpeedIsDirectionAndSpeed : Prop :=
  ∀ (n : Nat) (x : Int) (s : State),
    (x < 0 → exec (.setsspd n x) s = exec (.setdirspd n .rewind (-x)) s) ∧
    (0 ≤ x → exec (.setsspd n x) s = exec (.setdirspd n .forward x) s)

/-- `BRAKE`: direction bits `00`, then duty 255 and the channel enabled, overwriting the stored speed; with an index above 3
nothing (41_motor_commands.md R84). -/
def Obligations.BrakeStopsAtFullDuty : Prop :=
  (∀ (m : Fin 4) (s : State), BusIdle s →
    ∃ c : Byte, exec (.brake m) s = .next (analogWritten m 255#8 (latched c s)) ∧ PairReplaced m .stop s.shadow c) ∧
  (∀ (n : Nat) (s : State), 3 < n → exec (.brake n) s = .next s)

/-- `RELEASE`: the enable cleared and one gate event, nothing else, the duty and the direction kept; with an index above 3
nothing (41_motor_commands.md R85; the spec's decision D15). -/
def Obligations.ReleaseClearsTheEnable : Prop :=
  (∀ (m : Fin 4) (s : State), exec (.release m) s =
    .next { s with en := s.en.set m false, trace := s.trace ++ [.pwmGate m false] }) ∧
  (∀ (n : Nat) (s : State), 3 < n → exec (.release n) s = .next s)

/-- `SETPIN`: the bit the output index is wired to, by at most one commit; with an index above 7 nothing
(42_pin_and_global_commands.md R87; the guard is the spec's decision D9). -/
def Obligations.SetpinWritesTheWiredBit : Prop :=
  (∀ (i : Fin 8) (on : Bool) (s : State), BusIdle s →
    ∃ c : Byte, exec (.setpin i on) s = .next (latched c s) ∧ BitReplaced (outputPosition i) on s.shadow c) ∧
  (∀ (n : Nat) (on : Bool) (s : State), 7 < n → exec (.setpin n on) s = .next s)

/-- `ENALL`, `ENPINS`, `DISPINS`: the four enables and the four gate events, nothing else (42_pin_and_global_commands.md R88 to
R91; the order of the events is the trace's convention, the spec's decision D20). -/
def Obligations.EnableCommandsGateEveryChannel : Prop :=
  ∀ s : State,
    (∀ on : Bool, exec (.enall on) s =
      .next { s with en := #v[on, on, on, on]
                     trace := s.trace ++ [.pwmGate 0 on, .pwmGate 1 on, .pwmGate 2 on, .pwmGate 3 on] }) ∧
    exec .enpins s =
      .next { s with en := #v[true, true, true, true]
                     trace := s.trace ++ [.pwmGate 0 true, .pwmGate 1 true, .pwmGate 2 true, .pwmGate 3 true] } ∧
    exec .dispins s =
      .next { s with en := #v[false, false, false, false]
                     trace := s.trace ++ [.pwmGate 0 false, .pwmGate 1 false, .pwmGate 2 false, .pwmGate 3 false] }

/-- `SETALLSPD`: every channel takes the speed and is enabled, or nothing happens where the speed is out of range
(42_pin_and_global_commands.md R92; the order of the events is the spec's decision D20). -/
def Obligations.SetallspdWritesEveryChannel : Prop :=
  ∀ (x : Int) (s : State), exec (.setallspd x) s =
    if x < 0 ∨ x > 255 then .next s
    else .next { s with
      duty := Vector.replicate 4 (BitVec.ofNat 8 x.toNat)
      en := Vector.replicate 4 true
      trace := s.trace ++ [.pwmAna 0 (BitVec.ofNat 8 x.toNat), .pwmAna 1 (BitVec.ofNat 8 x.toNat),
        .pwmAna 2 (BitVec.ofNat 8 x.toNat), .pwmAna 3 (BitVec.ofNat 8 x.toNat)] }

/-- "The cases, all no-ops with no flag set and no record kept": motor index above 3, output index above 7, speed outside
0..255, reserved command encodings (60_exceptions.md R94, 30_encoding.md R56; the spec's decisions D5, D9). `SETDIRSPD` and
`SETSSPD` drop the speed part alone, each procedure having its own guard and the negation not wrapping
(41_motor_commands.md R75, R78, R79, R83; the spec's decisions D9, D27). -/
def Obligations.OutOfRangeOperandsAreSilent : Prop :=
  (∀ (n : Nat) (d : Direction) (x : Int) (s : State), 3 < n →
    exec (.setdir n d) s = .next s ∧ exec (.setdirspd n d x) s = .next s ∧ exec (.setspd n x) s = .next s ∧
    exec (.setsspd n x) s = .next s ∧ exec (.brake n) s = .next s ∧ exec (.release n) s = .next s) ∧
  (∀ (n : Nat) (on : Bool) (s : State), 7 < n → exec (.setpin n on) s = .next s) ∧
  (∀ (n : Nat) (d : Direction) (x : Int) (s : State), x < 0 ∨ 255 < x →
    exec (.setspd n x) s = .next s ∧ exec (.setallspd x) s = .next s ∧
    exec (.setdirspd n d x) s = exec (.setdir n d) s) ∧
  (∀ (n : Nat) (x : Int) (s : State), 255 < x.natAbs →
    exec (.setsspd n x) s = exec (.setdir n (if x < 0 then .rewind else .forward)) s) ∧
  (∀ (w : Word) (r : Reserved) (s : State), decode w = .error r → acceptWord w s = .next s)

/-- After `enableAll(1)` every pin carries the duty last stored for it, after `enableAll(0)` every pin is at 0, and the latch and
the stored duties are what they were (42_pin_and_global_commands.md R88; the spec's decision D13). -/
def Obligations.EnableReappliesStoredDuty : Prop :=
  ∀ (on : Bool) (s t : State), exec (.enall on) s = .next t →
    t.duty = s.duty ∧ t.shadow = s.shadow ∧ t.srOut = s.srOut ∧
    ∀ n : Fin 4, pwmOut t n = if on then s.duty[n] else 0#8

/-- After `release` the pin is at 0 with direction and duty kept; a later `ENPINS` brings the stored duty back, and a later
`SETSPD` in range drives the motor in the prior direction at the new speed (41_motor_commands.md R85; the spec's decision
D15). -/
def Obligations.ReleaseThenResume : Prop :=
  ∀ (m : Fin 4) (s t : State), exec (.release m) s = .next t →
    pwmOut t m = 0#8 ∧ dirbits t m = dirbits s m ∧
    (∀ u, exec .enpins t = .next u → pwmOut u m = s.duty[m] ∧ dirbits u m = dirbits s m) ∧
    (∀ x u, 0 ≤ x → x ≤ 255 → exec (.setspd m x) t = .next u →
      pwmOut u m = BitVec.ofInt 8 x ∧ dirbits u m = dirbits s m)

/-- `dirbits(m)` is `0b10` after Forward, `0b01` after Rewind, `0b00` after Stop; `0b11` is no Direction's code, no direction
command makes it, and `SETPIN`, `WRBIT` and `WRPAIR` can (10_state.md R26). -/
def Obligations.DirectionBitsOfCommands : Prop :=
  (∀ (m : Fin 4) (s t : State),
    (exec (.setdir m .forward) s = .next t → dirbits t m = 0b10#2) ∧
    (exec (.setdir m .rewind) s = .next t → dirbits t m = 0b01#2) ∧
    (exec (.setdir m .stop) s = .next t → dirbits t m = 0b00#2)) ∧
  (∀ d : Direction, dirCode d ≠ 0b11#2) ∧
  (∀ (i : Instr) (s t : State) (m : Fin 4), dirbits s m ≠ 0b11#2 → exec i s = .next t → dirbits t m = 0b11#2 →
    (∃ n on, i = .setpin n on) ∨ (∃ pos v, i = .wrbit pos v) ∨ (∃ hi lo v, i = .wrpair hi lo v)) ∧
  (∃ (s t : State) (n : Nat) (on : Bool) (m : Fin 4),
    dirbits s m ≠ 0b11#2 ∧ exec (.setpin n on) s = .next t ∧ dirbits t m = 0b11#2) ∧
  (∃ (s t : State) (pos : Nat) (v : Bool) (m : Fin 4),
    dirbits s m ≠ 0b11#2 ∧ exec (.wrbit pos v) s = .next t ∧ dirbits t m = 0b11#2) ∧
  (∃ (s t : State) (hi lo : Nat) (v : BitVec 2) (m : Fin 4),
    dirbits s m ≠ 0b11#2 ∧ exec (.wrpair hi lo v) s = .next t ∧ dirbits t m = 0b11#2)

/-- The per-motor state machine: how each command moves `(direction, speed, enabled)` of its motor (41_motor_commands.md R86,
which the spec marks as derived). -/
def Obligations.MotorStateMachine : Prop :=
  ∀ (m : Fin 4) (d : Direction) (x : Int) (s t : State),
    (exec (.setdir m d) s = .next t → motorView t m = { motorView s m with direction := some d }) ∧
    (exec (.setspd m x) s = .next t → motorView t m =
      if x < 0 ∨ x > 255 then motorView s m
      else { motorView s m with speed := BitVec.ofInt 8 x, enabled := true }) ∧
    (exec (.setdirspd m d x) s = .next t → motorView t m =
      if x < 0 ∨ x > 255 then { motorView s m with direction := some d }
      else { direction := some d, speed := BitVec.ofInt 8 x, enabled := true }) ∧
    (exec (.setsspd m x) s = .next t → motorView t m =
      if x.natAbs > 255 then { motorView s m with direction := some (if x < 0 then .rewind else .forward) }
      else { direction := some (if x < 0 then .rewind else .forward), speed := BitVec.ofNat 8 x.natAbs, enabled := true }) ∧
    (exec (.brake m) s = .next t → motorView t m = { direction := some .stop, speed := 255#8, enabled := true }) ∧
    (exec (.release m) s = .next t → motorView t m = { motorView s m with enabled := false })

/-- The informative drive table on what the commands make, at a command boundary: a braked motor after `BRAKE`, a released one
after `RELEASE`, a driven one after `SETDIRSPD` with a speed in 1..255 (10_state.md R28; informative, the spec's decision D26,
log entry 15). -/
def Obligations.DriveViewAfterCommands : Prop :=
  ∀ (m : Fin 4) (x : Int) (s t : State), BusSettled s → 1 ≤ x → x ≤ 255 →
    (exec (.brake m) s = .next t → driveOf t m = .braked) ∧
    (exec (.release m) s = .next t → driveOf t m = .released) ∧
    (exec (.setdirspd m .forward x) s = .next t → driveOf t m = .forward (BitVec.ofInt 8 x)) ∧
    (exec (.setdirspd m .rewind x) s = .next t → driveOf t m = .rewind (BitVec.ofInt 8 x))

/-! ### The wiring -/

/-- The wiring table and its inverse map, a permutation of the positions, and the one pin number the spec gives (10_state.md
R21, R22, 20_memory.md R39; the order inside the pairs is the spec's decision D7). -/
def Obligations.WiringTables : Prop :=
  latchBitOf 0 = 3 ∧ latchBitOf 1 = 2 ∧ latchBitOf 2 = 4 ∧ latchBitOf 3 = 1 ∧
  latchBitOf 4 = 7 ∧ latchBitOf 5 = 5 ∧ latchBitOf 6 = 6 ∧ latchBitOf 7 = 0 ∧
  (∀ i j : Fin 8, latchBitOf i = latchBitOf j → i = j) ∧
  (∀ m : Fin 4, (highPosition m, lowPosition m) = pairPositions m) ∧
  pwmPinOf 0 = 11

/-! ### Frames -/

/-- Frame of the commands that write channels only (`SETSPD`, `RELEASE`, `ENALL`, `ENPINS`, `DISPINS`, `SETALLSPD`): `SHADOW`,
the bus lines, the external register, `FAULT`, `CAUSE` and the host's moves are what they were, and no bus event is emitted
(41_motor_commands.md R77, R85, 42_pin_and_global_commands.md R88, R92). -/
def Obligations.ChannelCommandsLeaveTheLatch : Prop :=
  ∀ (i : Instr) (s t : State),
    ((∃ n x, i = .setspd n x) ∨ (∃ n, i = .release n) ∨ (∃ on, i = .enall on) ∨ i = .enpins ∨ i = .dispins ∨
      (∃ x, i = .setallspd x)) →
    exec i s = .next t →
      t.shadow = s.shadow ∧ t.data = s.data ∧ t.clock = s.clock ∧ t.latch = s.latch ∧
      t.srStage = s.srStage ∧ t.srOut = s.srOut ∧ t.fault = s.fault ∧ t.cause = s.cause ∧ t.host = s.host ∧
      ∃ es, t.trace = s.trace ++ es ∧ ∀ e ∈ es, e.isBus = false

/-- Frame of the commands that write the latch byte only (`SETDIR`, `SETPIN`, `WRBIT`, `WRPAIR`): `DUTY`, `EN` and the host's
moves are what they were, no PWM event is emitted, and `SETDIR` and `SETPIN` leave `FAULT` and `CAUSE` too
(41_motor_commands.md R76, 42_pin_and_global_commands.md R87, 40_latch_register.md R60, R61). -/
def Obligations.LatchCommandsLeaveTheChannels : Prop :=
  ∀ (i : Instr) (s t : State),
    ((∃ n d, i = .setdir n d) ∨ (∃ n on, i = .setpin n on) ∨ (∃ pos v, i = .wrbit pos v) ∨
      (∃ hi lo v, i = .wrpair hi lo v)) →
    exec i s = .next t →
      t.duty = s.duty ∧ t.en = s.en ∧ t.host = s.host ∧
      (∃ es, t.trace = s.trace ++ es ∧ ∀ e ∈ es, e.isBus = true) ∧
      (((∃ n d, i = .setdir n d) ∨ (∃ n on, i = .setpin n on)) → t.fault = s.fault ∧ t.cause = s.cause)

/-- A per-motor command leaves every other motor's direction bits, duty and enable as they were: "other motors' bits are never
changed" (41_motor_commands.md R80, 42_pin_and_global_commands.md R93). -/
def Obligations.OtherMotorsUnaffected : Prop :=
  ∀ (n : Nat) (d : Direction) (x : Int) (i : Instr) (s t : State) (m : Fin 4), m.val ≠ n →
    (i = .setdir n d ∨ i = .setdirspd n d x ∨ i = .setspd n x ∨ i = .setsspd n x ∨ i = .brake n ∨ i = .release n) →
    exec i s = .next t →
      dirbits t m = dirbits s m ∧ t.duty[m] = s.duty[m] ∧ t.en[m] = s.en[m] ∧ t.fault = s.fault ∧ t.cause = s.cause ∧
      t.host = s.host

/-- Only `WRBIT` and `WRPAIR` fault, on the operands the spec names, and a faulting command changes nothing else: every other
execution leaves `FAULT` and `CAUSE` alone (60_exceptions.md R95, R96, R101; the spec's decisions D11, D12). -/
def Obligations.OnlyLatchWritesFault : Prop :=
  ∀ (i : Instr) (s t : State), exec i s = .next t →
    (t.fault = s.fault ∧ t.cause = s.cause) ∨
    (∃ pos v, i = .wrbit pos v ∧ 7 < pos ∧ t = { s with fault := true, cause := 1#2 }) ∨
    (∃ hi lo v, i = .wrpair hi lo v ∧ (7 < hi ∨ 7 < lo) ∧ t = { s with fault := true, cause := 1#2 }) ∨
    (∃ p v, i = .wrpair p p v ∧ p ≤ 7 ∧ t = { s with fault := true, cause := 2#2 })

/-! ### Rules of the whole machine -/

/-- No redundant commits: every command's new events are exactly one commit of the new byte where `SHADOW` changed and none
where it did not, followed by PWM events alone (40_latch_register.md R65, 10_state.md R15, 41_motor_commands.md R78). -/
def Obligations.CommitExactlyWhenTheByteChanges : Prop :=
  ∀ (i : Instr) (s t : State), exec i s = .next t →
    ∃ es, (∀ e ∈ es, e.isBus = false) ∧
      t.trace = s.trace ++ (if t.shadow = s.shadow then [] else commitEvents t.shadow) ++ es

/-- Counted over a run of command words, from any state: the trace gains one latch pulse for every command that changed
`SHADOW` and no other, and the reset sequence's own pulse is the one a trace starts with (40_latch_register.md R65). -/
def Obligations.RunCountsOneCommitPerChange : Prop :=
  (∀ (k : Nat) (s t : State), CommandsOnly s → Sys2Proof.core.run k s = .next t →
    latchPulses t.trace = latchPulses s.trace + changesAlong k s) ∧
  latchPulses State.reset.trace = 1

/-- "Writing a bit or a pair with the value it already has is a no-op": any command given twice drives the bus no second time
and leaves the byte (20_memory.md R38, 40_latch_register.md R65). -/
def Obligations.RepeatedCommandDrivesNoBus : Prop :=
  ∀ (i : Instr) (s t u : State), exec i s = .next t → exec i t = .next u →
    u.shadow = t.shadow ∧ u.srOut = t.srOut ∧ u.srStage = t.srStage ∧
    ∃ es, u.trace = t.trace ++ es ∧ ∀ e ∈ es, e.isBus = false

/-- Every effect a command has on the pins and on the external register is the effect of its events, in order, from any state:
an observer who sees only the events computes the pins (10_state.md R27, 20_memory.md R41). -/
def Obligations.PinsFollowTheEvents : Prop :=
  ∀ (i : Instr) (s t : State), exec i s = .next t →
    ∃ es, t.trace = s.trace ++ es ∧ pinsOf t = es.foldl eventOnPins (pinsOf s)

/-- "No component reads back hardware state": whatever the external register holds, a step does the same to everything the
block itself holds and emits the same events (00_scope.md R7, 20_memory.md R33). -/
def Obligations.RegisterIsNeverReadBack : Prop :=
  ∀ (s : State) (stage out : Byte), ∃ t t' : State,
    step s = .next t ∧ step { s with srStage := stage, srOut := out } = .next t' ∧
    forgetRegister t = forgetRegister t'

/-- No refresh: a write of a value `SHADOW` already shows does nothing, so a wrong output stays wrong; writing a bit to the
opposite value and back re-synchronises the outputs (70_reset_and_hazards.md R119, which the spec marks as derived). -/
def Obligations.WrongOutputsStayUntilACommit : Prop :=
  (∀ (pos : Nat) (s : State), pos ≤ 7 → exec (.wrbit pos (s.shadow.getLsbD pos)) s = .next s) ∧
  (∀ (pos : Nat) (s : State), pos ≤ 7 → BusIdle s → ∃ t u,
    exec (.wrbit pos (!s.shadow.getLsbD pos)) s = .next t ∧ t.srOut = t.shadow ∧
    exec (.wrbit pos (s.shadow.getLsbD pos)) t = .next u ∧ u.shadow = s.shadow ∧ u.srOut = s.shadow)

/-! ### Invariants -/

/-- The latch register is settled right after reset (10_state.md R14, R16, 70_reset_and_hazards.md R111). -/
def Obligations.ResetBusSettled : Prop := BusSettled State.reset

/-- `SHADOW` "always equals the last value physically latched": every step, whatever the host's move, keeps `SR_OUT`,
`SR_STAGE` and the bus lines in agreement with `SHADOW`, and the last commit in the trace is of `SHADOW`'s byte (10_state.md
R14, R16, 40_latch_register.md R71, R72). -/
def Obligations.StepKeepsBusSettled : Prop :=
  ∀ s t : State, BusSettled s → step s = .next t → BusSettled t

/-- `CAUSE` is legal right after reset (10_state.md R17, R18). -/
def Obligations.ResetCauseLegal : Prop := CauseLegal State.reset

/-- `CAUSE` is 0 without a fault, 1 or 2 with one, and never 3 (10_state.md R18, 60_exceptions.md R95, R96, R99). -/
def Obligations.StepKeepsCauseLegal : Prop :=
  ∀ s t : State, CauseLegal s → step s = .next t → CauseLegal t

/-- After reset every enable is what the reset's gate events said (70_reset_and_hazards.md R110). -/
def Obligations.ResetEnablesFollowTrace : Prop := EnablesFollowTrace State.reset

/-- `EN[n]` is always what the last write of channel `n`'s pin in the trace said, an analog write or an on, or an off, through
every command and every reset (10_state.md R20, R27; the spec's decision D14). -/
def Obligations.StepKeepsEnablesFollowTrace : Prop :=
  ∀ s t : State, EnablesFollowTrace s → step s = .next t → EnablesFollowTrace t
end

