-- ==== Sys2Proof/Laws/Decode.lean ====
section
/-! SUPPORT. The bits of a command word: its fields, what a word built from fields holds, and which words match a row of the
opcode map, said in fields. Statements about `decode` and `encode` cite these and never unfold a mask. -/

namespace Sys2Proof.Laws

/-- Two concatenations are equal exactly when their parts are. -/
theorem append_eq_append_iff {a b : Nat} (x y : BitVec a) (u v : BitVec b) :
    x ++ u = y ++ v ↔ x = y ∧ u = v := by
  constructor
  · intro h
    have bit : ∀ i, (x ++ u).getLsbD i = (y ++ v).getLsbD i := fun i => by rw [h]
    constructor
    · refine BitVec.eq_of_getLsbD_eq fun i _ => ?_
      simpa [BitVec.getLsbD_append] using bit (i + b)
    · refine BitVec.eq_of_getLsbD_eq fun i hi => ?_
      simpa [BitVec.getLsbD_append, hi] using bit i
  · rintro ⟨rfl, rfl⟩
    rfl

/-- The five fields of a word are equal exactly when the words are. -/
theorem five_eq_iff (o o' : BitVec 4) (r r' d d' : BitVec 2) (i i' : BitVec 8) (m m' : BitVec 16) :
    (o ++ r ++ d ++ i ++ m : Word) = (o' ++ r' ++ d' ++ i' ++ m' : Word) ↔
      o = o' ∧ r = r' ∧ d = d' ∧ i = i' ∧ m = m' := by
  refine (append_eq_append_iff (o ++ r ++ d ++ i) (o' ++ r' ++ d' ++ i') m m').trans ?_
  rw [append_eq_append_iff (o ++ r ++ d) (o' ++ r' ++ d') i i', append_eq_append_iff (o ++ r) (o' ++ r') d d',
    append_eq_append_iff o o' r r']
  simp only [and_assoc]

/-- A word is its five fields (30_encoding.md R46). -/
theorem word_eq_fields (w : Word) :
    w = opField w ++ rsvField w ++ dirField w ++ idxField w ++ immField w := by
  refine BitVec.eq_of_getLsbD_eq fun i hi => ?_
  simp only [opField, rsvField, dirField, idxField, immField, BitVec.getLsbD_append, BitVec.getLsbD_extractLsb']
  interval_cases i <;> simp

/-- The immediate is `lo`, six bits and `v` (30_encoding.md R46). -/
theorem immField_eq_parts (w : Word) :
    immField w = loField w ++ w.extractLsb' 2 6 ++ valField w := by
  refine BitVec.eq_of_getLsbD_eq fun i hi => ?_
  simp only [immField, loField, valField, BitVec.getLsbD_append, BitVec.getLsbD_extractLsb']
  interval_cases i <;> simp

/-- The immediate is fifteen bits and `b` (30_encoding.md R46). -/
theorem immField_eq_bool (w : Word) :
    immField w = w.extractLsb' 1 15 ++ BitVec.ofBool (boolField w) := by
  refine BitVec.eq_of_getLsbD_eq fun i hi => ?_
  simp only [immField, boolField, BitVec.getLsbD_append, BitVec.getLsbD_extractLsb', BitVec.getLsbD_ofBool]
  interval_cases i <;> simp

section Fields

variable (op : BitVec 4) (dir : BitVec 2) (idx : BitVec 8) (imm : BitVec 16)

/-- The five fields of a word built from fields, with `rsv = 00`. -/
theorem fields_wordOf :
    opField (wordOf op dir idx imm) = op ∧ rsvField (wordOf op dir idx imm) = 0#2 ∧
    dirField (wordOf op dir idx imm) = dir ∧ idxField (wordOf op dir idx imm) = idx ∧
    immField (wordOf op dir idx imm) = imm := by
  have h := word_eq_fields (wordOf op dir idx imm)
  conv at h => lhs; unfold wordOf
  obtain ⟨h1, h2, h3, h4, h5⟩ := (five_eq_iff _ _ _ _ _ _ _ _ _ _).1 h
  exact ⟨h1.symm, h2.symm, h3.symm, h4.symm, h5.symm⟩

@[simp] theorem opField_wordOf : opField (wordOf op dir idx imm) = op := (fields_wordOf op dir idx imm).1
@[simp] theorem rsvField_wordOf : rsvField (wordOf op dir idx imm) = 0#2 := (fields_wordOf op dir idx imm).2.1
@[simp] theorem dirField_wordOf : dirField (wordOf op dir idx imm) = dir := (fields_wordOf op dir idx imm).2.2.1
@[simp] theorem idxField_wordOf : idxField (wordOf op dir idx imm) = idx := (fields_wordOf op dir idx imm).2.2.2.1
@[simp] theorem immField_wordOf : immField (wordOf op dir idx imm) = imm := (fields_wordOf op dir idx imm).2.2.2.2

end Fields

/-- Two words with the same five fields are the same word. -/
theorem word_ext {w w' : Word} (h1 : opField w = opField w') (h2 : rsvField w = rsvField w') (h3 : dirField w = dirField w')
    (h4 : idxField w = idxField w') (h5 : immField w = immField w') : w = w' := by
  rw [word_eq_fields w, word_eq_fields w', h1, h2, h3, h4, h5]

/-- The value of `op` that selects a row (30_encoding.md R48). -/
def rowOp : Opcode → BitVec 4
  | .setdir => 0x1#4
  | .setdirspd => 0x2#4
  | .setspd => 0x3#4
  | .setsspd => 0x4#4
  | .brake => 0x5#4
  | .release => 0x6#4
  | .setpin => 0x7#4
  | .enall => 0x8#4
  | .enpins => 0x9#4
  | .dispins => 0xA#4
  | .setallspd => 0xB#4
  | .wrbit => 0xC#4
  | .wrpair => 0xD#4

/-- The must-be-zero fields of a row's format but for `rsv` (30_encoding.md R47, R53). -/
def rowZeros (w : Word) : Opcode → Prop
  | .setdir => immField w = 0#16
  | .setdirspd => True
  | .setspd => dirField w = 0#2
  | .setsspd => dirField w = 0#2
  | .brake => dirField w = 0#2 ∧ immField w = 0#16
  | .release => dirField w = 0#2 ∧ immField w = 0#16
  | .setpin => dirField w = 0#2 ∧ w.extractLsb' 1 15 = 0#15
  | .enall => dirField w = 0#2 ∧ idxField w = 0#8 ∧ w.extractLsb' 1 15 = 0#15
  | .enpins => dirField w = 0#2 ∧ idxField w = 0#8 ∧ immField w = 0#16
  | .dispins => dirField w = 0#2 ∧ idxField w = 0#8 ∧ immField w = 0#16
  | .setallspd => dirField w = 0#2 ∧ idxField w = 0#8
  | .wrbit => dirField w = 0#2 ∧ w.extractLsb' 1 15 = 0#15
  | .wrpair => dirField w = 0#2 ∧ w.extractLsb' 2 6 = 0#6

/-- A masked compare of a word is a masked compare of each field. -/
theorem masked_eq_iff (w : Word) (o o' : BitVec 4) (r r' d d' : BitVec 2) (i i' : BitVec 8) (m m' : BitVec 16) :
    w &&& (o ++ r ++ d ++ i ++ m) = o' ++ r' ++ d' ++ i' ++ m' ↔
      opField w &&& o = o' ∧ rsvField w &&& r = r' ∧ dirField w &&& d = d' ∧ idxField w &&& i = i' ∧
      immField w &&& m = m' := by
  have h : w &&& (o ++ r ++ d ++ i ++ m) = (opField w &&& o) ++ (rsvField w &&& r) ++ (dirField w &&& d) ++
      (idxField w &&& i) ++ (immField w &&& m) := by
    conv => lhs; rw [word_eq_fields w]
    exact (BitVec.and_append ..).trans (by rw [BitVec.and_append, BitVec.and_append, BitVec.and_append])
  rw [h]
  exact five_eq_iff ..

/-- A masked compare of a boolean operand's immediate. -/
theorem immField_mask_bool (w : Word) : immField w &&& 0xFFFE#16 = 0#16 ↔ w.extractLsb' 1 15 = 0#15 := by
  rw [immField_eq_bool, show (0xFFFE#16) = (BitVec.allOnes 15 ++ 0#1) from rfl, show (0#16) = (0#15 ++ 0#1) from rfl,
    BitVec.and_append, append_eq_append_iff, BitVec.and_allOnes]
  simp

/-- A masked compare of `WRPAIR`'s immediate. -/
theorem immField_mask_pair (w : Word) : immField w &&& 0x00FC#16 = 0#16 ↔ w.extractLsb' 2 6 = 0#6 := by
  rw [immField_eq_parts, show (0x00FC#16) = (0#8 ++ BitVec.allOnes 6 ++ 0#2) from rfl,
    show (0#16) = (0#8 ++ 0#6 ++ 0#2) from rfl, BitVec.and_append, BitVec.and_append, append_eq_append_iff,
    append_eq_append_iff, BitVec.and_allOnes]
  simp

/-- A mask of a row is its fields' masks. -/
def maskParts : Opcode → BitVec 2 × BitVec 8 × BitVec 16
  | .setdir => (0#2, 0#8, 0xFFFF#16)
  | .setdirspd => (0#2, 0#8, 0#16)
  | .setspd => (3#2, 0#8, 0#16)
  | .setsspd => (3#2, 0#8, 0#16)
  | .brake => (3#2, 0#8, 0xFFFF#16)
  | .release => (3#2, 0#8, 0xFFFF#16)
  | .setpin => (3#2, 0#8, 0xFFFE#16)
  | .enall => (3#2, 0xFF#8, 0xFFFE#16)
  | .enpins => (3#2, 0xFF#8, 0xFFFF#16)
  | .dispins => (3#2, 0xFF#8, 0xFFFF#16)
  | .setallspd => (3#2, 0xFF#8, 0#16)
  | .wrbit => (3#2, 0#8, 0xFFFE#16)
  | .wrpair => (3#2, 0#8, 0x00FC#16)

/-- The `mask` column, field by field. -/
theorem rowMask_eq_parts (r : Opcode) :
    rowMask r = 0xF#4 ++ 3#2 ++ (maskParts r).1 ++ (maskParts r).2.1 ++ (maskParts r).2.2 := by
  cases r <;> rfl

/-- The `match` column, field by field. -/
theorem rowMatch_eq_parts (r : Opcode) : rowMatch r = rowOp r ++ 0#2 ++ 0#2 ++ 0#8 ++ 0#16 := by
  cases r <;> rfl

/-- Which words match a row: its `op`, `rsv = 00`, and zeros where its format wants them (30_encoding.md R47, R48). -/
theorem rowMatches_iff (w : Word) (r : Opcode) :
    rowMatches w r = true ↔ opField w = rowOp r ∧ rsvField w = 0#2 ∧ rowZeros w r := by
  have ones4 : ∀ x : BitVec 4, x &&& 0xF#4 = x := by decide
  have ones2 : ∀ x : BitVec 2, x &&& 3#2 = x := by decide
  have ones8 : ∀ x : BitVec 8, x &&& 0xFF#8 = x := fun x => BitVec.and_allOnes (x := x)
  have ones16 : ∀ x : BitVec 16, x &&& 0xFFFF#16 = x := fun x => BitVec.and_allOnes (x := x)
  rw [rowMatches, beq_iff_eq, rowMask_eq_parts, rowMatch_eq_parts, masked_eq_iff, ones4, ones2]
  cases r <;>
    simp [maskParts, rowZeros, ones2, ones8, ones16, immField_mask_bool, immField_mask_pair]

/-- A row is found exactly by the words that match it: rows differ in `op`. -/
theorem find_row_eq_some_iff (w : Word) (r : Opcode) :
    opcodeRows.find? (rowMatches w) = some r ↔ rowMatches w r = true := by
  constructor
  · exact List.find?_some
  · intro h
    have hop : ∀ r', rowMatches w r' = true → r' = r := by
      intro r' h'
      have e : rowOp r' = rowOp r := by
        rw [← ((rowMatches_iff w r').1 h').1, ← ((rowMatches_iff w r).1 h).1]
      revert e
      cases r <;> cases r' <;> decide
    cases hf : opcodeRows.find? (rowMatches w) with
    | none =>
      have hr : r ∈ opcodeRows := by cases r <;> decide
      exact absurd h (by simpa using List.find?_eq_none.1 hf r hr)
    | some r' => rw [hop r' (List.find?_some hf)]

/-- A word that matches a row decodes to that row's fields. -/
theorem decode_of_rowMatches {w : Word} {r : Opcode} (h : rowMatches w r = true) : decode w = fieldsOf r w := by
  simp only [decode, (find_row_eq_some_iff w r).2 h]

/-- Whatever decodes matches some row and is that row's fields. -/
theorem decode_eq_ok {w : Word} {i : Instr} (h : decode w = .ok i) :
    ∃ r, rowMatches w r = true ∧ fieldsOf r w = .ok i := by
  unfold decode at h
  split at h
  · next r hr => exact ⟨r, (find_row_eq_some_iff w r).1 hr, h⟩
  · split at h <;> simp at h

/-- A direction's code is read back as the direction (30_encoding.md R49). -/
@[simp] theorem directionOf_dirCode (d : Direction) : directionOf (dirCode d) = some d := by
  cases d <;> rfl

/-- A code that is read as a direction is its code, and is not `0b11`. -/
theorem directionOf_eq_some {c : BitVec 2} {d : Direction} (h : directionOf c = some d) : dirCode d = c := by
  have all : ∀ c : BitVec 2, ∀ d ∈ directionOf c, dirCode d = c := by decide
  exact all c d h

/-- An index operand is read back where it fits (30_encoding.md R50). -/
theorem toNat_indexBits {n : Nat} (h : indexFits n = true) : (indexBits n).toNat = n := by
  simp only [indexFits, decide_eq_true_eq] at h
  simp [indexBits, BitVec.toNat_ofNat]
  omega

/-- A speed operand is read back where it fits (30_encoding.md R51). -/
theorem toInt_speedBits {s : Int} (h : speedFits s = true) : (speedBits s).toInt = s := by
  simp only [speedFits, decide_eq_true_eq] at h
  simp [speedBits, BitVec.toInt_ofInt, Int.bmod_def]
  omega

end Sys2Proof.Laws
end

