-- ==== Sys2Proof/Laws/State.lean ====
section
/-! SUPPORT. What each named update of the state leaves in each field: one lemma per field per update, true by rfl, so that no
later proof unfolds a record update. -/

namespace Sys2Proof.Machine

/-! ### `SHADOW <- b` -/

section

variable (b : Byte) (s : State)

@[simp] theorem setShadow_shadow : (setShadow b s).shadow = b := rfl
@[simp] theorem setShadow_data : (setShadow b s).data = s.data := rfl
@[simp] theorem setShadow_clock : (setShadow b s).clock = s.clock := rfl
@[simp] theorem setShadow_latch : (setShadow b s).latch = s.latch := rfl
@[simp] theorem setShadow_duty : (setShadow b s).duty = s.duty := rfl
@[simp] theorem setShadow_en : (setShadow b s).en = s.en := rfl
@[simp] theorem setShadow_fault : (setShadow b s).fault = s.fault := rfl
@[simp] theorem setShadow_cause : (setShadow b s).cause = s.cause := rfl
@[simp] theorem setShadow_srStage : (setShadow b s).srStage = s.srStage := rfl
@[simp] theorem setShadow_srOut : (setShadow b s).srOut = s.srOut := rfl
@[simp] theorem setShadow_trace : (setShadow b s).trace = s.trace := rfl
@[simp] theorem setShadow_host : (setShadow b s).host = s.host := rfl

end

/-! ### `Dig(DATA, v)` -/

section

variable (v : Bool) (s : State)

@[simp] theorem driveData_shadow : (driveData v s).shadow = s.shadow := rfl
@[simp] theorem driveData_data : (driveData v s).data = v := rfl
@[simp] theorem driveData_clock : (driveData v s).clock = s.clock := rfl
@[simp] theorem driveData_latch : (driveData v s).latch = s.latch := rfl
@[simp] theorem driveData_duty : (driveData v s).duty = s.duty := rfl
@[simp] theorem driveData_en : (driveData v s).en = s.en := rfl
@[simp] theorem driveData_fault : (driveData v s).fault = s.fault := rfl
@[simp] theorem driveData_cause : (driveData v s).cause = s.cause := rfl
@[simp] theorem driveData_srStage : (driveData v s).srStage = s.srStage := rfl
@[simp] theorem driveData_srOut : (driveData v s).srOut = s.srOut := rfl
@[simp] theorem driveData_trace : (driveData v s).trace = s.trace := rfl
@[simp] theorem driveData_host : (driveData v s).host = s.host := rfl

end

/-! ### `Dig(CLOCK, v)` -/

section

variable (v : Bool) (s : State)

@[simp] theorem driveClock_shadow : (driveClock v s).shadow = s.shadow := rfl
@[simp] theorem driveClock_data : (driveClock v s).data = s.data := rfl
@[simp] theorem driveClock_clock : (driveClock v s).clock = v := rfl
@[simp] theorem driveClock_latch : (driveClock v s).latch = s.latch := rfl
@[simp] theorem driveClock_duty : (driveClock v s).duty = s.duty := rfl
@[simp] theorem driveClock_en : (driveClock v s).en = s.en := rfl
@[simp] theorem driveClock_fault : (driveClock v s).fault = s.fault := rfl
@[simp] theorem driveClock_cause : (driveClock v s).cause = s.cause := rfl
@[simp] theorem driveClock_srStage : (driveClock v s).srStage = if !s.clock && v then s.srStage.extractLsb' 0 7 ++ BitVec.ofBool s.data else s.srStage := rfl
@[simp] theorem driveClock_srOut : (driveClock v s).srOut = s.srOut := rfl
@[simp] theorem driveClock_trace : (driveClock v s).trace = s.trace := rfl
@[simp] theorem driveClock_host : (driveClock v s).host = s.host := rfl

end

/-! ### `Dig(LATCH, v)` -/

section

variable (v : Bool) (s : State)

@[simp] theorem driveLatch_shadow : (driveLatch v s).shadow = s.shadow := rfl
@[simp] theorem driveLatch_data : (driveLatch v s).data = s.data := rfl
@[simp] theorem driveLatch_clock : (driveLatch v s).clock = s.clock := rfl
@[simp] theorem driveLatch_latch : (driveLatch v s).latch = v := rfl
@[simp] theorem driveLatch_duty : (driveLatch v s).duty = s.duty := rfl
@[simp] theorem driveLatch_en : (driveLatch v s).en = s.en := rfl
@[simp] theorem driveLatch_fault : (driveLatch v s).fault = s.fault := rfl
@[simp] theorem driveLatch_cause : (driveLatch v s).cause = s.cause := rfl
@[simp] theorem driveLatch_srStage : (driveLatch v s).srStage = s.srStage := rfl
@[simp] theorem driveLatch_srOut : (driveLatch v s).srOut = if !s.latch && v then s.srStage else s.srOut := rfl
@[simp] theorem driveLatch_trace : (driveLatch v s).trace = s.trace := rfl
@[simp] theorem driveLatch_host : (driveLatch v s).host = s.host := rfl

end

/-! ### `DUTY[n] <- d` -/

section

variable (n : Fin 4) (d : Byte) (s : State)

@[simp] theorem setDuty_shadow : (setDuty n d s).shadow = s.shadow := rfl
@[simp] theorem setDuty_data : (setDuty n d s).data = s.data := rfl
@[simp] theorem setDuty_clock : (setDuty n d s).clock = s.clock := rfl
@[simp] theorem setDuty_latch : (setDuty n d s).latch = s.latch := rfl
@[simp] theorem setDuty_duty : (setDuty n d s).duty = s.duty.set n d := rfl
@[simp] theorem setDuty_en : (setDuty n d s).en = s.en := rfl
@[simp] theorem setDuty_fault : (setDuty n d s).fault = s.fault := rfl
@[simp] theorem setDuty_cause : (setDuty n d s).cause = s.cause := rfl
@[simp] theorem setDuty_srStage : (setDuty n d s).srStage = s.srStage := rfl
@[simp] theorem setDuty_srOut : (setDuty n d s).srOut = s.srOut := rfl
@[simp] theorem setDuty_trace : (setDuty n d s).trace = s.trace := rfl
@[simp] theorem setDuty_host : (setDuty n d s).host = s.host := rfl

end

/-! ### `EN[n] <- v` -/

section

variable (n : Fin 4) (v : Bool) (s : State)

@[simp] theorem setEnable_shadow : (setEnable n v s).shadow = s.shadow := rfl
@[simp] theorem setEnable_data : (setEnable n v s).data = s.data := rfl
@[simp] theorem setEnable_clock : (setEnable n v s).clock = s.clock := rfl
@[simp] theorem setEnable_latch : (setEnable n v s).latch = s.latch := rfl
@[simp] theorem setEnable_duty : (setEnable n v s).duty = s.duty := rfl
@[simp] theorem setEnable_en : (setEnable n v s).en = s.en.set n v := rfl
@[simp] theorem setEnable_fault : (setEnable n v s).fault = s.fault := rfl
@[simp] theorem setEnable_cause : (setEnable n v s).cause = s.cause := rfl
@[simp] theorem setEnable_srStage : (setEnable n v s).srStage = s.srStage := rfl
@[simp] theorem setEnable_srOut : (setEnable n v s).srOut = s.srOut := rfl
@[simp] theorem setEnable_trace : (setEnable n v s).trace = s.trace := rfl
@[simp] theorem setEnable_host : (setEnable n v s).host = s.host := rfl

end

/-! ### `FAULT <- 1; CAUSE <- c` -/

section

variable (c : FaultCause) (s : State)

@[simp] theorem setFault_shadow : (setFault c s).shadow = s.shadow := rfl
@[simp] theorem setFault_data : (setFault c s).data = s.data := rfl
@[simp] theorem setFault_clock : (setFault c s).clock = s.clock := rfl
@[simp] theorem setFault_latch : (setFault c s).latch = s.latch := rfl
@[simp] theorem setFault_duty : (setFault c s).duty = s.duty := rfl
@[simp] theorem setFault_en : (setFault c s).en = s.en := rfl
@[simp] theorem setFault_fault : (setFault c s).fault = true := rfl
@[simp] theorem setFault_cause : (setFault c s).cause = causeCode c := rfl
@[simp] theorem setFault_srStage : (setFault c s).srStage = s.srStage := rfl
@[simp] theorem setFault_srOut : (setFault c s).srOut = s.srOut := rfl
@[simp] theorem setFault_trace : (setFault c s).trace = s.trace := rfl
@[simp] theorem setFault_host : (setFault c s).host = s.host := rfl

end

/-! ### `FAULT <- 0; CAUSE <- 0` -/

section

variable (s : State)

@[simp] theorem clearFault_shadow : (clearFault s).shadow = s.shadow := rfl
@[simp] theorem clearFault_data : (clearFault s).data = s.data := rfl
@[simp] theorem clearFault_clock : (clearFault s).clock = s.clock := rfl
@[simp] theorem clearFault_latch : (clearFault s).latch = s.latch := rfl
@[simp] theorem clearFault_duty : (clearFault s).duty = s.duty := rfl
@[simp] theorem clearFault_en : (clearFault s).en = s.en := rfl
@[simp] theorem clearFault_fault : (clearFault s).fault = false := rfl
@[simp] theorem clearFault_cause : (clearFault s).cause = 0#2 := rfl
@[simp] theorem clearFault_srStage : (clearFault s).srStage = s.srStage := rfl
@[simp] theorem clearFault_srOut : (clearFault s).srOut = s.srOut := rfl
@[simp] theorem clearFault_trace : (clearFault s).trace = s.trace := rfl
@[simp] theorem clearFault_host : (clearFault s).host = s.host := rfl

end

/-! ### the bus lines put to their idle levels -/

section

variable (s : State)

@[simp] theorem idleBus_shadow : (idleBus s).shadow = s.shadow := rfl
@[simp] theorem idleBus_data : (idleBus s).data = false := rfl
@[simp] theorem idleBus_clock : (idleBus s).clock = false := rfl
@[simp] theorem idleBus_latch : (idleBus s).latch = false := rfl
@[simp] theorem idleBus_duty : (idleBus s).duty = s.duty := rfl
@[simp] theorem idleBus_en : (idleBus s).en = s.en := rfl
@[simp] theorem idleBus_fault : (idleBus s).fault = s.fault := rfl
@[simp] theorem idleBus_cause : (idleBus s).cause = s.cause := rfl
@[simp] theorem idleBus_srStage : (idleBus s).srStage = s.srStage := rfl
@[simp] theorem idleBus_srOut : (idleBus s).srOut = s.srOut := rfl
@[simp] theorem idleBus_trace : (idleBus s).trace = s.trace := rfl
@[simp] theorem idleBus_host : (idleBus s).host = s.host := rfl

end

/-! ### `emit E` -/

section

variable (e : Event) (s : State)

@[simp] theorem emit_shadow : (emit e s).shadow = s.shadow := rfl
@[simp] theorem emit_data : (emit e s).data = s.data := rfl
@[simp] theorem emit_clock : (emit e s).clock = s.clock := rfl
@[simp] theorem emit_latch : (emit e s).latch = s.latch := rfl
@[simp] theorem emit_duty : (emit e s).duty = s.duty := rfl
@[simp] theorem emit_en : (emit e s).en = s.en := rfl
@[simp] theorem emit_fault : (emit e s).fault = s.fault := rfl
@[simp] theorem emit_cause : (emit e s).cause = s.cause := rfl
@[simp] theorem emit_srStage : (emit e s).srStage = s.srStage := rfl
@[simp] theorem emit_srOut : (emit e s).srOut = s.srOut := rfl
@[simp] theorem emit_trace : (emit e s).trace = s.trace ++ [e] := rfl
@[simp] theorem emit_host : (emit e s).host = s.host := rfl

end

/-! ### the next command word -/

section

variable (w : Word) (s : State)

@[simp] theorem presentWord_shadow : (presentWord w s).shadow = s.shadow := rfl
@[simp] theorem presentWord_data : (presentWord w s).data = s.data := rfl
@[simp] theorem presentWord_clock : (presentWord w s).clock = s.clock := rfl
@[simp] theorem presentWord_latch : (presentWord w s).latch = s.latch := rfl
@[simp] theorem presentWord_duty : (presentWord w s).duty = s.duty := rfl
@[simp] theorem presentWord_en : (presentWord w s).en = s.en := rfl
@[simp] theorem presentWord_fault : (presentWord w s).fault = s.fault := rfl
@[simp] theorem presentWord_cause : (presentWord w s).cause = s.cause := rfl
@[simp] theorem presentWord_srStage : (presentWord w s).srStage = s.srStage := rfl
@[simp] theorem presentWord_srOut : (presentWord w s).srOut = s.srOut := rfl
@[simp] theorem presentWord_trace : (presentWord w s).trace = s.trace := rfl
@[simp] theorem presentWord_host : (presentWord w s).host = .command w :: s.host := rfl

end

end Sys2Proof.Machine
end

