-- ==== Sys2Proof/Laws/Ops.lean ====
section
/-! SUPPORT. What each shared operation can do, said once: performing events, the shift-out, the guards, the bit replacement,
the two write procedures, and the loops over the channels. -/

namespace Sys2Proof.Machine

/-! ### Performing events -/

@[simp] theorem performAll_nil (s : State) : performAll [] s = s := rfl

@[simp] theorem performAll_cons (e : Event) (es : List Event) (s : State) :
    performAll (e :: es) s = performAll es (perform e s) := rfl

theorem performAll_append (es es' : List Event) (s : State) :
    performAll (es ++ es') s = performAll es' (performAll es s) := by
  simp [performAll, List.foldl_append]

/-- An event writes the pins and the trace, nothing else (10_state.md R27). -/
theorem perform_frame (e : Event) (s : State) :
    (perform e s).shadow = s.shadow ∧ (perform e s).fault = s.fault ∧ (perform e s).cause = s.cause ∧
    (perform e s).host = s.host ∧ (perform e s).trace = s.trace ++ [e] := by
  cases e with
  | dig l v => cases l <;> exact ⟨rfl, rfl, rfl, rfl, rfl⟩
  | delay t => exact ⟨rfl, rfl, rfl, rfl, rfl⟩
  | pwmAna n d => exact ⟨rfl, rfl, rfl, rfl, rfl⟩
  | pwmGate n v => exact ⟨rfl, rfl, rfl, rfl, rfl⟩

@[simp] theorem perform_shadow (e : Event) (s : State) : (perform e s).shadow = s.shadow := (perform_frame e s).1
@[simp] theorem perform_fault (e : Event) (s : State) : (perform e s).fault = s.fault := (perform_frame e s).2.1
@[simp] theorem perform_cause (e : Event) (s : State) : (perform e s).cause = s.cause := (perform_frame e s).2.2.1
@[simp] theorem perform_host (e : Event) (s : State) : (perform e s).host = s.host := (perform_frame e s).2.2.2.1
@[simp] theorem perform_trace (e : Event) (s : State) : (perform e s).trace = s.trace ++ [e] := (perform_frame e s).2.2.2.2

/-- Events write the pins, and the trace by exactly themselves in order (20_memory.md R41). -/
theorem performAll_frame (es : List Event) (s : State) :
    (performAll es s).shadow = s.shadow ∧ (performAll es s).fault = s.fault ∧ (performAll es s).cause = s.cause ∧
    (performAll es s).host = s.host ∧ (performAll es s).trace = s.trace ++ es := by
  induction es generalizing s with
  | nil => simp
  | cons e es ih => simpa [List.append_assoc] using ih (perform e s)

@[simp] theorem performAll_shadow (es : List Event) (s : State) : (performAll es s).shadow = s.shadow :=
  (performAll_frame es s).1
@[simp] theorem performAll_fault (es : List Event) (s : State) : (performAll es s).fault = s.fault :=
  (performAll_frame es s).2.1
@[simp] theorem performAll_cause (es : List Event) (s : State) : (performAll es s).cause = s.cause :=
  (performAll_frame es s).2.2.1
@[simp] theorem performAll_host (es : List Event) (s : State) : (performAll es s).host = s.host :=
  (performAll_frame es s).2.2.2.1
@[simp] theorem performAll_trace (es : List Event) (s : State) : (performAll es s).trace = s.trace ++ es :=
  (performAll_frame es s).2.2.2.2

/-- A bus event leaves the PWM channels as they are (10_state.md R27). -/
theorem perform_bus_channels {e : Event} (h : e.isBus = true) (s : State) :
    (perform e s).duty = s.duty ∧ (perform e s).en = s.en := by
  cases e with
  | dig l v => cases l <;> exact ⟨rfl, rfl⟩
  | delay t => exact ⟨rfl, rfl⟩
  | pwmAna n d => simp [Event.isBus] at h
  | pwmGate n v => simp [Event.isBus] at h

/-- Bus events leave the PWM channels as they are. -/
theorem performAll_bus_channels {es : List Event} (h : ∀ e ∈ es, e.isBus = true) (s : State) :
    (performAll es s).duty = s.duty ∧ (performAll es s).en = s.en := by
  induction es generalizing s with
  | nil => simp
  | cons e es ih =>
    have h1 := perform_bus_channels (h e (by simp)) s
    have h2 := ih (fun e' he' => h e' (by simp [he'])) (perform e s)
    exact ⟨h2.1.trans h1.1, h2.2.trans h1.2⟩

/-- A PWM event leaves the bus lines and the external register as they are (10_state.md R27). -/
theorem perform_pwm_bus {e : Event} (h : e.isBus = false) (s : State) :
    (perform e s).data = s.data ∧ (perform e s).clock = s.clock ∧ (perform e s).latch = s.latch ∧
    (perform e s).srStage = s.srStage ∧ (perform e s).srOut = s.srOut := by
  cases e with
  | dig l v => simp [Event.isBus] at h
  | delay t => simp [Event.isBus] at h
  | pwmAna n d => exact ⟨rfl, rfl, rfl, rfl, rfl⟩
  | pwmGate n v => exact ⟨rfl, rfl, rfl, rfl, rfl⟩

/-! ### The shift-out (40_latch_register.md R67) -/

/-- Every event of a commit is a bus event. -/
theorem isBus_of_mem_commitEvents {b : Byte} {e : Event} (h : e ∈ commitEvents b) : e.isBus = true := by
  have all : (commitEvents b).all Event.isBus = true := rfl
  exact List.all_eq_true.1 all e h

/-- A commit has 28 events (40_latch_register.md R64). -/
theorem length_commitEvents (b : Byte) : (commitEvents b).length = 28 := rfl

/-- One bit on the wire, the clock at rest before it: `DATA` carries it and the stage takes it in at bit 0
(40_latch_register.md R67, R69). -/
theorem performAll_bitEvents (x : Bool) (s : State) (h : s.clock = false) :
    performAll (bitEvents x) s =
      { s with
        data := x
        clock := false
        srStage := s.srStage.extractLsb' 0 7 ++ BitVec.ofBool x
        trace := s.trace ++ bitEvents x } := by
  simp [bitEvents, perform, applyEvent, driveData, driveClock, emit, h]

/-- Shifting one bit into a stage moves its lower seven bits up. -/
theorem getLsbD_shiftIn (b : Byte) (x : Bool) (i : Nat) :
    (b.extractLsb' 0 7 ++ BitVec.ofBool x : Byte).getLsbD i =
      if i = 0 then x else (decide (i < 8) && b.getLsbD (i - 1)) := by
  rw [BitVec.getLsbD_append]
  rcases i with _ | i
  · simp
  · rw [BitVec.getLsbD_extractLsb']
    simp [Nat.succ_lt_succ_iff]

/-- `k` more bits of `b` on the wire: the stage holds them at its low end, `DATA` holds the last one sent, the clock is at
rest again, and nothing else but the trace has changed (40_latch_register.md R67). -/
theorem performAll_shiftEventsFrom (b : Byte) (k : Nat) (s : State) (h : s.clock = false) :
    ∃ stage : Byte, performAll (shiftEventsFrom b k) s =
      { s with
        data := if k = 0 then s.data else b.getLsbD 0
        clock := false
        srStage := stage
        trace := s.trace ++ shiftEventsFrom b k } ∧
      ∀ i, stage.getLsbD i = if i < k ∧ i < 8 then b.getLsbD i else (decide (i < 8) && s.srStage.getLsbD (i - k)) := by
  induction k generalizing s with
  | zero =>
    refine ⟨s.srStage, ?_, fun i => ?_⟩
    · simp [shiftEventsFrom, ← h]
    · by_cases hi : i < 8
      · simp [hi]
      · simp [hi, BitVec.getLsbD_of_ge s.srStage i (by omega)]
  | succ k ih =>
    rw [shiftEventsFrom, performAll_append, performAll_bitEvents _ _ h]
    obtain ⟨stage, heq, hbits⟩ := ih
      { s with
        data := b.getLsbD k
        clock := false
        srStage := s.srStage.extractLsb' 0 7 ++ BitVec.ofBool (b.getLsbD k)
        trace := s.trace ++ bitEvents (b.getLsbD k) } rfl
    refine ⟨stage, ?_, fun i => ?_⟩
    · rw [heq]
      rcases k with _ | k <;> simp [List.append_assoc]
    · rw [hbits i]
      simp only [getLsbD_shiftIn]
      by_cases h8 : i < 8
      · rcases Nat.lt_trichotomy i k with hik | hik | hik
        · simp [h8, hik, show i < k + 1 by omega]
        · subst hik
          simp [h8]
        · simp [h8, show ¬ i < k by omega, show ¬ i < k + 1 by omega, show i - k ≠ 0 by omega,
            show i - k < 8 by omega, show i - k - 1 = i - (k + 1) by omega]
      · simp [h8]

/-- `shiftOutMSBFirst(b)` leaves the byte in the stage, whatever was there, and the outputs alone (40_latch_register.md R67, R69). -/
theorem performAll_shiftEvents (b : Byte) (s : State) (h : s.clock = false) :
    performAll (shiftEvents b) s =
      { s with
        data := b.getLsbD 0
        clock := false
        srStage := b
        trace := s.trace ++ shiftEvents b } := by
  obtain ⟨stage, heq, hbits⟩ := performAll_shiftEventsFrom b 8 s h
  have hstage : stage = b := BitVec.eq_of_getLsbD_eq fun i hi => by rw [hbits i, if_pos ⟨hi, hi⟩]
  rw [shiftEvents, heq, hstage]
  rfl

/-- The latch pulse, the latch line at rest before it: the outputs take the stage (40_latch_register.md R64, R70). -/
theorem performAll_pulseEvents (s : State) (h : s.latch = false) :
    performAll pulseEvents s =
      { s with latch := false, srOut := s.srStage, trace := s.trace ++ pulseEvents } := by
  simp [pulseEvents, settleDelay, perform, applyEvent, driveLatch, emit, h]

/-! ### Guards (41_motor_commands.md R75, R77; 42_pin_and_global_commands.md R87) -/

@[simp] theorem motorIndex_val (m : Fin 4) : motorIndex m.val = some m := by
  simp [motorIndex, m.isLt]

/-- An index above 3 names no motor. -/
theorem motorIndex_eq_none {n : Nat} (h : 3 < n) : motorIndex n = none := by
  simp [motorIndex, show ¬ n < 4 by omega]

/-- What a motor index answers is the operand. -/
theorem motorIndex_eq_some {n : Nat} {m : Fin 4} (h : motorIndex n = some m) : m.val = n := by
  unfold motorIndex at h
  split at h
  · cases h; rfl
  · cases h

@[simp] theorem outputIndex_val (i : Fin 8) : outputIndex i.val = some i := by
  simp [outputIndex, i.isLt]

/-- An index above 7 names no output. -/
theorem outputIndex_eq_none {n : Nat} (h : 7 < n) : outputIndex n = none := by
  simp [outputIndex, show ¬ n < 8 by omega]

/-- What an output index answers is the operand. -/
theorem outputIndex_eq_some {n : Nat} {i : Fin 8} (h : outputIndex n = some i) : i.val = n := by
  unfold outputIndex at h
  split at h
  · cases h; rfl
  · cases h

/-- A speed in 0..255 is its own duty (41_motor_commands.md R77). -/
theorem dutyOf_of_inRange {x : Int} (h0 : 0 ≤ x) (h1 : x ≤ 255) : dutyOf x = some (BitVec.ofNat 8 x.toNat) := by
  obtain ⟨k, rfl⟩ := Int.eq_ofNat_of_zero_le h0
  simp [dutyOf, h1]

/-- A speed outside 0..255 is no duty (41_motor_commands.md R77). -/
theorem dutyOf_eq_none {x : Int} (h : x < 0 ∨ 255 < x) : dutyOf x = none := by
  simp only [dutyOf, ite_eq_right_iff]
  intro h'
  omega

/-! ### Bit replacement (00_scope.md R11) -/

/-- `setbit` replaces one bit and leaves the others. -/
theorem getLsbD_setbit (b : Byte) {p : Nat} (x : Bool) (hp : p < 8) {i : Nat} (hi : i < 8) :
    (setbit b p x).getLsbD i = if i = p then x else b.getLsbD i := by
  have key : ∀ b : Byte, ∀ x : Bool, ∀ p i : Fin 8,
      (setbit b p x).getLsbD i = if i.val = p.val then x else b.getLsbD i := by
    intro b x p i
    simp only [setbit, BitVec.getLsbD_or, BitVec.getLsbD_and, BitVec.getLsbD_not, BitVec.getLsbD_shiftLeft,
      BitVec.getLsbD_setWidth, BitVec.getLsbD_ofBool]
    fin_cases p <;> fin_cases i <;> cases x <;> simp
  exact key b x ⟨p, hp⟩ ⟨i, hi⟩

/-! ### The Latch Register's writes (40_latch_register.md R60, R61) -/

/-- Everything a compare-and-commit can do. -/
theorem commitIfChanged_cases (cand : Byte) (s : State) :
    (cand = s.shadow ∧ commitIfChanged cand s = s) ∨
    (cand ≠ s.shadow ∧ commitIfChanged cand s = commit cand s) := by
  unfold commitIfChanged
  split
  · exact .inl ⟨‹_›, rfl⟩
  · exact .inr ⟨‹_›, rfl⟩

/-- Everything `writeBit` can do. -/
theorem writeBit_cases (pos : Nat) (v : Bool) (s : State) :
    (7 < pos ∧ writeBit pos v s = raiseFault .posRange s) ∨
    (pos ≤ 7 ∧ writeBit pos v s = commitIfChanged (setbit s.shadow pos v) s) := by
  unfold writeBit
  split
  · exact .inl ⟨‹_›, rfl⟩
  · exact .inr ⟨by omega, rfl⟩

/-- Everything `writeBitPair` can do. -/
theorem writeBitPair_cases (hi lo : Nat) (v : BitVec 2) (s : State) :
    ((7 < hi ∨ 7 < lo) ∧ writeBitPair hi lo v s = raiseFault .posRange s) ∨
    (hi ≤ 7 ∧ hi = lo ∧ writeBitPair hi lo v s = raiseFault .pairAlias s) ∨
    (hi ≤ 7 ∧ lo ≤ 7 ∧ hi ≠ lo ∧ writeBitPair hi lo v s =
      commitIfChanged (setbit (setbit s.shadow hi (v.getLsbD 1)) lo (v.getLsbD 0)) s) := by
  unfold writeBitPair
  split
  · exact .inl ⟨by omega, rfl⟩
  · split
    · exact .inr (.inl ⟨by omega, ‹_›, rfl⟩)
    · exact .inr (.inr ⟨by omega, by omega, ‹_›, rfl⟩)

/-- The position an output index is wired to is a position, so `SETPIN` never faults (40_latch_register.md R62). -/
theorem latchBitOf_le (i : Fin 8) : latchBitOf i ≤ 7 := by
  revert i; decide

/-- The two positions of a motor are positions and differ, so a direction never faults (40_latch_register.md R62, R63). -/
theorem pair_positions (m : Fin 4) :
    highPosition m ≤ 7 ∧ lowPosition m ≤ 7 ∧ highPosition m ≠ lowPosition m := by
  revert m; decide

/-! ### The Motor Controller (41_motor_commands.md R76 to R79) -/

/-- Everything `setDirection` can do. -/
theorem setDirection_cases (n : Nat) (d : Direction) (s : State) :
    (3 < n ∧ setDirection n d s = s) ∨
    (∃ m : Fin 4, m.val = n ∧ setDirection n d s =
      commitIfChanged (setbit (setbit s.shadow (highPosition m) ((dirCode d).getLsbD 1)) (lowPosition m)
        ((dirCode d).getLsbD 0)) s) := by
  unfold setDirection
  rcases Nat.lt_or_ge 3 n with h | h
  · exact .inl ⟨h, by rw [motorIndex_eq_none h]⟩
  · refine .inr ⟨⟨n, by omega⟩, rfl, ?_⟩
    rw [show motorIndex n = some ⟨n, by omega⟩ from motorIndex_val ⟨n, by omega⟩]
    have hp := pair_positions ⟨n, by omega⟩
    rcases writeBitPair_cases (highPosition ⟨n, by omega⟩) (lowPosition ⟨n, by omega⟩) (dirCode d) s with
      ⟨h', _⟩ | ⟨_, h', _⟩ | ⟨_, _, _, h'⟩
    · omega
    · exact absurd h' hp.2.2
    · exact h'

/-- Everything `setSpeed` can do. -/
theorem setSpeed_cases (n : Nat) (x : Int) (s : State) :
    ((3 < n ∨ x < 0 ∨ 255 < x) ∧ setSpeed n x s = s) ∨
    (∃ m : Fin 4, m.val = n ∧ 0 ≤ x ∧ x ≤ 255 ∧
      setSpeed n x s = perform (.pwmAna m (BitVec.ofNat 8 x.toNat)) s) := by
  unfold setSpeed
  rcases Nat.lt_or_ge 3 n with h | h
  · exact .inl ⟨.inl h, by rw [motorIndex_eq_none h]⟩
  · rw [show motorIndex n = some ⟨n, by omega⟩ from motorIndex_val ⟨n, by omega⟩]
    rcases Int.lt_or_le x 0 with h0 | h0
    · exact .inl ⟨.inr (.inl h0), by rw [dutyOf_eq_none (.inl h0)]⟩
    · rcases Int.lt_or_le 255 x with h1 | h1
      · exact .inl ⟨.inr (.inr h1), by rw [dutyOf_eq_none (.inr h1)]⟩
      · exact .inr ⟨⟨n, by omega⟩, rfl, h0, h1, by rw [dutyOf_of_inRange h0 h1]⟩

/-- Everything `release` can do. -/
theorem releaseMotor_cases (n : Nat) (s : State) :
    (3 < n ∧ releaseMotor n s = s) ∨
    (∃ m : Fin 4, m.val = n ∧ releaseMotor n s = perform (.pwmGate m false) s) := by
  unfold releaseMotor
  rcases Nat.lt_or_ge 3 n with h | h
  · exact .inl ⟨h, by rw [motorIndex_eq_none h]⟩
  · refine .inr ⟨⟨n, by omega⟩, rfl, ?_⟩
    rw [show motorIndex n = some ⟨n, by omega⟩ from motorIndex_val ⟨n, by omega⟩]

/-- Everything `setSinglePin` can do. -/
theorem setSinglePin_cases (n : Nat) (on : Bool) (s : State) :
    (7 < n ∧ setSinglePin n on s = s) ∨
    (∃ i : Fin 8, i.val = n ∧ setSinglePin n on s = commitIfChanged (setbit s.shadow (latchBitOf i) on) s) := by
  unfold setSinglePin
  rcases Nat.lt_or_ge 7 n with h | h
  · exact .inl ⟨h, by rw [outputIndex_eq_none h]⟩
  · refine .inr ⟨⟨n, by omega⟩, rfl, ?_⟩
    rw [show outputIndex n = some ⟨n, by omega⟩ from outputIndex_val ⟨n, by omega⟩]
    rcases writeBit_cases (latchBitOf ⟨n, by omega⟩) on s with ⟨h', _⟩ | ⟨_, h'⟩
    · have := latchBitOf_le ⟨n, by omega⟩
      omega
    · exact h'

/-- `setAllSpeed` is nothing, or the four channels written in order (42_pin_and_global_commands.md R92). -/
theorem setAllSpeed_cases (x : Int) (s : State) :
    ((x < 0 ∨ 255 < x) ∧ setAllSpeed x s = s) ∨
    (0 ≤ x ∧ x ≤ 255 ∧
      setAllSpeed x s = performAll (channels.map fun n => .pwmAna n (BitVec.ofNat 8 x.toNat)) s) := by
  have step : ∀ (n : Fin 4) (t : State), setSpeed n x t =
      match dutyOf x with
      | some d => perform (.pwmAna n d) t
      | none => t := by
    intro n t
    unfold setSpeed
    rw [motorIndex_val]
    cases dutyOf x <;> rfl
  by_cases h : x < 0 ∨ 255 < x
  · refine .inl ⟨h, ?_⟩
    simp only [setAllSpeed, channels, List.foldl_cons, List.foldl_nil, step, dutyOf_eq_none h]
  · refine .inr ⟨by omega, by omega, ?_⟩
    simp only [setAllSpeed, channels, List.foldl_cons, List.foldl_nil, step, List.map_cons, List.map_nil,
      dutyOf_of_inRange (show 0 ≤ x by omega) (show x ≤ 255 by omega), performAll_cons, performAll_nil]

/-! ### Reset (70_reset_and_hazards.md R110) -/

/-- Step 1 of the reset sequence: every duty and enable cleared, the four gate events, nothing else. -/
theorem resetChannels_eq (s : State) :
    channels.foldl (fun t (n : Fin 4) => resetChannel n t) s =
      { s with
        duty := Vector.replicate 4 0#8
        en := Vector.replicate 4 false
        trace := s.trace ++ gateEvents false } := by
  have four : ∀ {α : Type} (v : Vector α 4) (x : α),
      (((v.set 0 x).set 1 x).set 2 x).set 3 x = Vector.replicate 4 x := by
    intro α v x
    ext i hi
    have : i = 0 ∨ i = 1 ∨ i = 2 ∨ i = 3 := by omega
    rcases this with rfl | rfl | rfl | rfl <;> simp
  simp only [channels, List.foldl_cons, List.foldl_nil, resetChannel, perform, applyEvent, emit, setEnable, setDuty,
    gateEvents, List.map_cons, List.map_nil, List.append_assoc, List.cons_append, List.nil_append]
  congr 1
  · exact four s.duty 0#8
  · exact four s.en false

end Sys2Proof.Machine
end

