-- ==== Sys2Proof/Laws/Exec.lean ====
section
/-! SUPPORT. Once for all commands: what executing one can do to the state (the inversion of `exec`), and what the block does
with each of the host's moves (the inversion of `step`'s parts). -/

namespace Sys2Proof.Machine

/-- Every shape a command's effect has: a fault taken (only by the two Latch Register commands), or at most one commit of a
byte that differs from `SHADOW`, followed by PWM events. -/
inductive Effect (s : State) : State → Prop
  /-- The fault of `WRBIT` or `WRPAIR`, taken before anything else happens (60_exceptions.md R101). -/
  | fault (c : FaultCause) : Effect s (raiseFault c s)
  /-- No bus activity: PWM events alone, or nothing. -/
  | quiet (es : List Event) (h : ∀ e ∈ es, e.isBus = false) : Effect s (performAll es s)
  /-- One commit, then PWM events (41_motor_commands.md R78). -/
  | commits (b : Byte) (hb : b ≠ s.shadow) (es : List Event) (h : ∀ e ∈ es, e.isBus = false) :
      Effect s (performAll es (commit b s))

/-- Doing nothing is an effect. -/
theorem effect_none (s : State) : Effect s s := by
  simpa using Effect.quiet (s := s) [] (by simp)

/-- A compare-and-commit is an effect. -/
theorem effect_commitIfChanged (b : Byte) (s : State) : Effect s (commitIfChanged b s) := by
  rcases commitIfChanged_cases b s with ⟨_, h⟩ | ⟨hb, h⟩ <;> rw [h]
  · exact effect_none s
  · simpa using Effect.commits b hb [] (by simp)

/-- PWM events may follow a compare-and-commit. -/
theorem effect_commitThenEvents (b : Byte) (s : State) {es : List Event} (h : ∀ e ∈ es, e.isBus = false) :
    Effect s (performAll es (commitIfChanged b s)) := by
  rcases commitIfChanged_cases b s with ⟨_, h'⟩ | ⟨hb, h'⟩ <;> rw [h']
  · exact Effect.quiet es h
  · exact Effect.commits b hb es h

/-- `setDirectionAndSpeed` is an effect: the direction's commit, then the speed's event (41_motor_commands.md R78). -/
theorem effect_setDirectionAndSpeed (n : Nat) (d : Direction) (x : Int) (s : State) :
    Effect s (setDirectionAndSpeed n d x s) := by
  unfold setDirectionAndSpeed
  rcases setDirection_cases n d s with ⟨hn, h⟩ | ⟨m, hm, h⟩
  · rw [h]
    rcases setSpeed_cases n x s with ⟨_, h'⟩ | ⟨m, hm, _⟩
    · rw [h']; exact effect_none s
    · omega
  · rw [h]
    rcases setSpeed_cases n x (commitIfChanged _ s) with ⟨_, h'⟩ | ⟨m', _, _, _, h'⟩ <;> rw [h']
    · exact effect_commitIfChanged _ s
    · simpa using effect_commitThenEvents _ s (es := [.pwmAna m' (BitVec.ofNat 8 x.toNat)]) (by simp [Event.isBus])

/-- Every command answers a next state, and its effect has one of the three shapes. -/
theorem exec_effect (i : Instr) (s : State) : ∃ t, exec i s = .next t ∧ Effect s t := by
  cases i with
  | setdir n d =>
    refine ⟨_, rfl, ?_⟩
    rcases setDirection_cases n d s with ⟨_, h⟩ | ⟨m, _, h⟩ <;> rw [h]
    · exact effect_none s
    · exact effect_commitIfChanged _ s
  | setdirspd n d x => exact ⟨_, rfl, effect_setDirectionAndSpeed n d x s⟩
  | setspd n x =>
    refine ⟨_, rfl, ?_⟩
    rcases setSpeed_cases n x s with ⟨_, h⟩ | ⟨m, _, _, _, h⟩ <;> rw [h]
    · exact effect_none s
    · simpa using Effect.quiet (s := s) [.pwmAna m (BitVec.ofNat 8 x.toNat)] (by simp [Event.isBus])
  | setsspd n x =>
    refine ⟨_, rfl, ?_⟩
    unfold setSignedSpeed
    split
    · exact effect_setDirectionAndSpeed n .rewind (-x) s
    · exact effect_setDirectionAndSpeed n .forward x s
  | brake n => exact ⟨_, rfl, effect_setDirectionAndSpeed n .stop 255 s⟩
  | release n =>
    refine ⟨_, rfl, ?_⟩
    rcases releaseMotor_cases n s with ⟨_, h⟩ | ⟨m, _, h⟩ <;> rw [h]
    · exact effect_none s
    · simpa using Effect.quiet (s := s) [.pwmGate m false] (by simp [Event.isBus])
  | setpin n on =>
    refine ⟨_, rfl, ?_⟩
    rcases setSinglePin_cases n on s with ⟨_, h⟩ | ⟨i, _, h⟩ <;> rw [h]
    · exact effect_none s
    · exact effect_commitIfChanged _ s
  | enall on => exact ⟨_, rfl, Effect.quiet (gateEvents on) (by simp [gateEvents, channels, Event.isBus])⟩
  | enpins => exact ⟨_, rfl, Effect.quiet (gateEvents true) (by simp [gateEvents, channels, Event.isBus])⟩
  | dispins => exact ⟨_, rfl, Effect.quiet (gateEvents false) (by simp [gateEvents, channels, Event.isBus])⟩
  | setallspd x =>
    refine ⟨_, rfl, ?_⟩
    rcases setAllSpeed_cases x s with ⟨_, h⟩ | ⟨_, _, h⟩ <;> rw [h]
    · exact effect_none s
    · exact Effect.quiet _ (by simp [channels, Event.isBus])
  | wrbit pos v =>
    refine ⟨_, rfl, ?_⟩
    rcases writeBit_cases pos v s with ⟨_, h⟩ | ⟨_, h⟩ <;> rw [h]
    · exact Effect.fault _
    · exact effect_commitIfChanged _ s
  | wrpair hi lo v =>
    refine ⟨_, rfl, ?_⟩
    rcases writeBitPair_cases hi lo v s with ⟨_, h⟩ | ⟨_, _, h⟩ | ⟨_, _, _, h⟩ <;> rw [h]
    · exact Effect.fault _
    · exact Effect.fault _
    · exact effect_commitIfChanged _ s

/-- What executing a command can do, from its answer. -/
theorem effect_of_exec {i : Instr} {s t : State} (h : exec i s = .next t) : Effect s t := by
  obtain ⟨t', h', he⟩ := exec_effect i s
  rw [h'] at h
  cases h
  exact he

/-- What the port does with a command word: nothing, or a command's effect (60_exceptions.md R98, 30_encoding.md R56). -/
theorem acceptWord_effect (w : Word) (s : State) : ∃ t, acceptWord w s = .next t ∧ Effect s t := by
  unfold acceptWord
  split
  · exact ⟨s, rfl, effect_none s⟩
  · split
    · exact exec_effect _ s
    · exact ⟨s, rfl, effect_none s⟩

/-- What stays of an abandoned command's events is a first part of them. -/
theorem keptEvents_prefix (w : Word) (k : Nat) (es : List Event) : keptEvents w k es <+: es := by
  unfold keptEvents
  split
  · split
    · exact List.nil_prefix
    · exact List.take_prefix k es
  · exact List.take_prefix k es

/-- The four writes of the `enableAll` family are one step (42_pin_and_global_commands.md R88). -/
theorem keptEvents_of_enablesAll {w : Word} {i : Instr} (hw : decode w = .ok i) (hi : enablesAll i = true) (k : Nat)
    (es : List Event) : keptEvents w k es = if k < 4 then [] else es.take k := by
  simp [keptEvents, hw, hi, channels]

/-- Any other command can be abandoned between two of its events. -/
theorem keptEvents_of_not_enablesAll {w : Word} (h : ∀ i, decode w = .ok i → enablesAll i = false) (k : Nat)
    (es : List Event) : keptEvents w k es = es.take k := by
  unfold keptEvents
  split
  · next i hi => simp [h i hi]
  · rfl

/-- All that stays of an abandoned command is the kept part of its events. -/
@[simp] theorem abandonAfter_trace (w : Word) (k : Nat) (s t : State) :
    (abandonAfter w k s t).trace = s.trace ++ keptEvents w k (t.trace.drop s.trace.length) := rfl

end Sys2Proof.Machine
end

