-- ==== Sys2Proof/Laws/PerInstr.lean ====
section
/-! SUPPORT. Per-instruction facts about the syntax and its encoding. Family WordMatchesRow: the word `encode` gives an
instruction, whatever its operands, matches that instruction's own row of the opcode map (30_encoding.md R47, R48). -/

namespace Sys2Proof.Laws

/-- The row of the opcode map an instruction belongs to (30_encoding.md R48). -/
def rowOfInstr : Instr → Opcode
  | .setdir _ _ => .setdir
  | .setdirspd _ _ _ => .setdirspd
  | .setspd _ _ => .setspd
  | .setsspd _ _ => .setsspd
  | .brake _ => .brake
  | .release _ => .release
  | .setpin _ _ => .setpin
  | .enall _ => .enall
  | .enpins => .enpins
  | .dispins => .dispins
  | .setallspd _ => .setallspd
  | .wrbit _ _ => .wrbit
  | .wrpair _ _ _ => .wrpair

/-- In a word with a boolean immediate, the fifteen bits above `b` are zero (30_encoding.md R52). -/
theorem boolBits_zeros (op : BitVec 4) (dir : BitVec 2) (idx : BitVec 8) (b : Bool) :
    (wordOf op dir idx (boolBits b)).extractLsb' 1 15 = 0#15 := by
  have h := immField_eq_bool (wordOf op dir idx (boolBits b))
  rw [immField_wordOf] at h
  exact ((append_eq_append_iff _ _ _ _).1 h).1.symm

/-- The parts of `WRPAIR`'s immediate are read back (30_encoding.md R46, R47). -/
theorem pairBits_parts (op : BitVec 4) (dir : BitVec 2) (idx : BitVec 8) (lo : Nat) (v : BitVec 2) :
    loField (wordOf op dir idx (pairBits lo v)) = indexBits lo ∧
    (wordOf op dir idx (pairBits lo v)).extractLsb' 2 6 = 0#6 ∧
    valField (wordOf op dir idx (pairBits lo v)) = v := by
  have h := immField_eq_parts (wordOf op dir idx (pairBits lo v))
  rw [immField_wordOf] at h
  obtain ⟨h1, h2⟩ := (append_eq_append_iff (indexBits lo ++ 0#6) _ v _).1 h
  obtain ⟨h3, h4⟩ := (append_eq_append_iff (indexBits lo) _ (0#6) _).1 h1
  exact ⟨h3.symm, h4.symm, h2.symm⟩

namespace WordMatchesRow

/-- The instruction's word matches its row. -/
def Statement (i : Instr) : Prop := rowMatches (encode i) (rowOfInstr i) = true

theorem setdir (n : Nat) (d : Direction) : Statement (.setdir n d) := by
  simp [Statement, rowMatches_iff, rowOfInstr, encode, rowOp, rowZeros]

theorem setdirspd (n : Nat) (d : Direction) (speed : Int) : Statement (.setdirspd n d speed) := by
  simp [Statement, rowMatches_iff, rowOfInstr, encode, rowOp, rowZeros]

theorem setspd (n : Nat) (speed : Int) : Statement (.setspd n speed) := by
  simp [Statement, rowMatches_iff, rowOfInstr, encode, rowOp, rowZeros]

theorem setsspd (n : Nat) (speed : Int) : Statement (.setsspd n speed) := by
  simp [Statement, rowMatches_iff, rowOfInstr, encode, rowOp, rowZeros]

theorem brake (n : Nat) : Statement (.brake n) := by
  simp [Statement, rowMatches_iff, rowOfInstr, encode, rowOp, rowZeros]

theorem release (n : Nat) : Statement (.release n) := by
  simp [Statement, rowMatches_iff, rowOfInstr, encode, rowOp, rowZeros]

theorem setpin (n : Nat) (on : Bool) : Statement (.setpin n on) := by
  simp [Statement, rowMatches_iff, rowOfInstr, encode, rowOp, rowZeros, boolBits_zeros]

theorem enall (on : Bool) : Statement (.enall on) := by
  simp [Statement, rowMatches_iff, rowOfInstr, encode, rowOp, rowZeros, boolBits_zeros]

theorem enpins : Statement .enpins := by
  simp [Statement, rowMatches_iff, rowOfInstr, encode, rowOp, rowZeros]

theorem dispins : Statement .dispins := by
  simp [Statement, rowMatches_iff, rowOfInstr, encode, rowOp, rowZeros]

theorem setallspd (speed : Int) : Statement (.setallspd speed) := by
  simp [Statement, rowMatches_iff, rowOfInstr, encode, rowOp, rowZeros]

theorem wrbit (pos : Nat) (value : Bool) : Statement (.wrbit pos value) := by
  simp [Statement, rowMatches_iff, rowOfInstr, encode, rowOp, rowZeros, boolBits_zeros]

theorem wrpair (hi lo : Nat) (v : BitVec 2) : Statement (.wrpair hi lo v) := by
  simp [Statement, rowMatches_iff, rowOfInstr, encode, rowOp, rowZeros, pairBits_parts]

end WordMatchesRow

end Sys2Proof.Laws
end

