-- ==== Sys2Proof/Tests/Slice0.lean ====
section
/-! SUPPORT. The model's own tests, each about one step or one word, with its expected result from 95_test_vectors.md or from a
rule's worked example; and, for every statement with hypotheses, a concrete state and operands that meet them (`witness_...`). -/

namespace Sys2Proof.Tests

open Sys2Proof.Machine Sys2Proof.Safety

/-! ### WellFormed refuses an ill-formed term of each check -/

theorem test_wf_index_refused : (Instr.setdir 256 .forward).wellFormed = false := by decide
theorem test_wf_index_top : (Instr.setdir 255 .forward).wellFormed = true := by decide
theorem test_wf_setdirspd_index : (Instr.setdirspd 256 .stop 0).wellFormed = false := by decide
theorem test_wf_setdirspd_speed : (Instr.setdirspd 0 .stop 32768).wellFormed = false := by decide
theorem test_wf_setspd_index : (Instr.setspd 256 0).wellFormed = false := by decide
theorem test_wf_setspd_speed : (Instr.setspd 0 (-32769)).wellFormed = false := by decide
theorem test_wf_setsspd_index : (Instr.setsspd 256 0).wellFormed = false := by decide
theorem test_wf_setsspd_speed : (Instr.setsspd 0 32768).wellFormed = false := by decide
theorem test_wf_brake : (Instr.brake 256).wellFormed = false := by decide
theorem test_wf_release : (Instr.release 256).wellFormed = false := by decide
theorem test_wf_setpin : (Instr.setpin 256 true).wellFormed = false := by decide
theorem test_wf_setallspd : (Instr.setallspd 32768).wellFormed = false := by decide
theorem test_wf_wrbit : (Instr.wrbit 256 true).wellFormed = false := by decide
theorem test_wf_wrpair_hi : (Instr.wrpair 256 0 0).wellFormed = false := by decide
theorem test_wf_wrpair_lo : (Instr.wrpair 0 256 0).wellFormed = false := by decide

/-! ### Decoding: words written bit by bit from 30_encoding.md R46 to R52 (and V-DEC) -/

/-- `op` 0001, `rsv` 00, `dir` 01, `idx` 255, `imm` 0. -/
theorem test_decode_setdir : decode 0b0001_00_01_11111111_0000000000000000#32 = .ok (.setdir 255 .rewind) := by decide
/-- `op` 0010, `dir` 00, `imm` all ones: speed -1. -/
theorem test_decode_setdirspd : decode 0b0010_00_00_00000000_1111111111111111#32 = .ok (.setdirspd 0 .stop (-1)) := by decide
/-- `op` 0011, `idx` 1, `imm` 0x8000: speed -32768. -/
theorem test_decode_setspd : decode 0b0011_00_00_00000001_1000000000000000#32 = .ok (.setspd 1 (-32768)) := by decide
/-- `op` 0100, `idx` 2, `imm` 0xFFCE: -50. -/
theorem test_decode_setsspd : decode 0b0100_00_00_00000010_1111111111001110#32 = .ok (.setsspd 2 (-50)) := by decide
/-- `op` 0101, `idx` 1. -/
theorem test_decode_brake : decode 0b0101_00_00_00000001_0000000000000000#32 = .ok (.brake 1) := by decide
/-- `op` 0110, `idx` 3. -/
theorem test_decode_release : decode 0b0110_00_00_00000011_0000000000000000#32 = .ok (.release 3) := by decide
/-- `op` 0111, `idx` 7, `b` 1. -/
theorem test_decode_setpin : decode 0b0111_00_00_00000111_0000000000000001#32 = .ok (.setpin 7 true) := by decide
/-- `op` 1000, `b` 1. -/
theorem test_decode_enall : decode 0b1000_00_00_00000000_0000000000000001#32 = .ok (.enall true) := by decide
/-- `op` 1001. -/
theorem test_decode_enpins : decode 0b1001_00_00_00000000_0000000000000000#32 = .ok .enpins := by decide
/-- `op` 1010. -/
theorem test_decode_dispins : decode 0b1010_00_00_00000000_0000000000000000#32 = .ok .dispins := by decide
/-- `op` 1011, `imm` 200. -/
theorem test_decode_setallspd : decode 0b1011_00_00_00000000_0000000011001000#32 = .ok (.setallspd 200) := by decide
/-- `op` 1100, `idx` 9, `b` 1. -/
theorem test_decode_wrbit : decode 0b1100_00_00_00001001_0000000000000001#32 = .ok (.wrbit 9 true) := by decide
/-- `op` 1101, `idx` 2, `lo` 3, `v` 10. -/
theorem test_decode_wrpair : decode 0b1101_00_00_00000010_00000011_000000_10#32 = .ok (.wrpair 2 3 0b10#2) := by decide
/-- Reserved words of V-DEC, each by its name. -/
theorem test_decode_dir11 : decode 0x23000080#32 = .error .direction := by decide
theorem test_decode_rsv : decode 0x48000080#32 = .error .mustBeZero := by decide
theorem test_decode_pair_mbz : decode 0xD0020304#32 = .error .mustBeZero := by decide
theorem test_decode_all_ones : decode 0xFFFFFFFF#32 = .error .opcode := by decide
/-- 30_encoding.md section 8, the other way. -/
theorem test_encode_setsspd : encode (.setsspd 2 (-50)) = 0x4002FFCE#32 := by decide
theorem test_encode_wrpair : encode (.wrpair 2 3 0b10#2) = 0xD0020302#32 := by decide

/-! ### One step on a small state -/

/-- A state at a command boundary with byte `b` latched, and the channels given. -/
def boundary (b : Byte) (duty : Vector Byte 4) (en : Vector Bool 4) : State :=
  { State.reset with
    shadow := b, srStage := b, srOut := b, data := b.getLsbD 0, duty := duty, en := en
    trace := gateEvents true ++ commitEvents b }

/-- One field of the state after the next step runs the word `w`. -/
def afterWord {α : Type} (f : State → α) (w : Word) (s : State) : Option α :=
  match step (presentWord w s) with
  | .next t => some (f t)
  | .fault _ => none
  | .refused _ => none

/-- The events of that step. -/
def eventsOf (w : Word) (s : State) : Option (List Event) :=
  afterWord (fun t => t.trace.drop s.trace.length) w s

/-- Every motor `Forward` at a duty, as in E6. -/
def running : State := boundary 0x27#8 #v[10#8, 20#8, 30#8, 40#8] #v[true, true, true, true]

/-- V-DIR: `SETDIR 2, REW` from 0xFF gives 0xDF. -/
theorem test_setdir_rewind :
    afterWord (·.srOut) 0x11020000#32 (boundary 0xFF#8 (Vector.replicate 4 0) (Vector.replicate 4 false)) = some 0xDF#8 := by
  decide
/-- V-DIR: `SETDIR 4, FWD` is a no-op. -/
theorem test_setdir_guard : eventsOf 0x12040000#32 State.reset = some [] := by decide
/-- P1, first command: `Commit(0x04) PwmAna(0,128)`. -/
theorem test_setdirspd_trace : eventsOf 0x22000080#32 State.reset = some (commitEvents 0x04#8 ++ [.pwmAna 0 128#8]) := by decide
/-- V-SPD: `SETDIRSPD 1, FWD, 256`: direction written, speed dropped. -/
theorem test_setdirspd_guard : eventsOf 0x22010100#32 State.reset = some (commitEvents 0x02#8) := by decide
/-- V-SPD: `SETSPD 1, 256` leaves the channel. -/
theorem test_setspd_256 : afterWord (·.duty) 0x30010100#32 running = some #v[10#8, 20#8, 30#8, 40#8] := by decide
/-- V-SPD: `SETSPD 3, 1`, the highest valid index. -/
theorem test_setspd_3 : eventsOf 0x30030001#32 State.reset = some [.pwmAna 3 1#8] := by decide
/-- V-SSPD: `SETSSPD 0, -32768`: Rewind, speed dropped. -/
theorem test_setsspd_min : eventsOf 0x40008000#32 State.reset = some (commitEvents 0x08#8) := by decide
/-- V-SSPD: `SETSSPD 0, 0`: Forward at 0. -/
theorem test_setsspd_zero : eventsOf 0x40000000#32 State.reset = some (commitEvents 0x04#8 ++ [.pwmAna 0 0#8]) := by decide
/-- E6: `BRAKE 0` gives `Commit(0x23) PwmAna(0,255)`. -/
theorem test_brake_trace : eventsOf 0x50000000#32 running = some (commitEvents 0x23#8 ++ [.pwmAna 0 255#8]) := by decide
/-- E6: only channel 0 changes. -/
theorem test_brake_duty : afterWord (·.duty) 0x50000000#32 running = some #v[255#8, 20#8, 30#8, 40#8] := by decide
/-- E7: `RELEASE 0` keeps the duty and gates the channel. -/
theorem test_release_en : afterWord (·.en) 0x60000000#32 running = some #v[false, true, true, true] := by decide
theorem test_release_duty : afterWord (·.duty) 0x60000000#32 running = some #v[10#8, 20#8, 30#8, 40#8] := by decide
/-- V-PIN: `SETPIN 4, 1` writes position 7. -/
theorem test_setpin_4 : afterWord (·.shadow) 0x70040001#32 State.reset = some 0x80#8 := by decide
/-- V-PIN: `SETPIN 8, 1` is a no-op, not a fault. -/
theorem test_setpin_guard : afterWord (·.fault) 0x70080001#32 State.reset = some false := by decide
/-- V-GLB: `ENALL 0`. -/
theorem test_enall_off : eventsOf 0x80000000#32 running =
    some [.pwmGate 0 false, .pwmGate 1 false, .pwmGate 2 false, .pwmGate 3 false] := by decide
/-- V-GLB: `ENPINS` re-applies the stored duty, the vector that tells the two readings of D13 apart. -/
theorem test_enpins_pwm : afterWord (fun t => pwmOut t 2) 0x90000000#32
    (boundary 0x27#8 #v[128#8, 0#8, 50#8, 255#8] #v[true, false, true, false]) = some 50#8 := by decide
/-- R91: `DISPINS`. -/
theorem test_dispins_en : afterWord (·.en) 0xA0000000#32 running = some #v[false, false, false, false] := by decide
/-- V-GLB: `SETALLSPD 255` and `SETALLSPD -1`. -/
theorem test_setallspd_255 : afterWord (·.duty) 0xB00000FF#32 running = some #v[255#8, 255#8, 255#8, 255#8] := by decide
theorem test_setallspd_negative : eventsOf 0xB000FFFF#32 running = some [] := by decide
/-- V-L4: `WRBIT 7, 0` from 0xA5 gives 0x25 and leaves `DATA` at 1. -/
theorem test_wrbit_top : afterWord (fun t => (t.srOut, t.data)) 0xC0070000#32
    (boundary 0xA5#8 (Vector.replicate 4 0) (Vector.replicate 4 false)) = some (0x25#8, true) := by decide
/-- V-L5: `WRBIT 8, 0`, the lowest position out of range. -/
theorem test_wrbit_fault : afterWord (fun t => (t.fault, t.cause)) 0xC0080000#32 State.reset = some (true, 1#2) := by decide
/-- V-L8: `WRPAIR 0, 7, 0b01` from 0xFF gives 0xFE. -/
theorem test_wrpair_swapped : afterWord (·.shadow) 0xD0000701#32
    (boundary 0xFF#8 (Vector.replicate 4 0) (Vector.replicate 4 false)) = some 0xFE#8 := by decide
/-- V-L11: `WRPAIR 9, 9`: `POS_RANGE` has priority. -/
theorem test_wrpair_priority : afterWord (·.cause) 0xD0090901#32 State.reset = some 1#2 := by decide
/-- V-L10: `WRPAIR 2, 2, 0b00`. -/
theorem test_wrpair_alias : afterWord (·.cause) 0xD0020200#32 State.reset = some 2#2 := by decide

/-- A halted state, as after V-FLT's first command. -/
def halted : State := { running with fault := true, cause := 1#2 }

/-- V-FLT: a halted block runs nothing. -/
theorem test_halted_discards : afterWord (·.cause) 0xD0020200#32 halted = some 1#2 := by decide
/-- V-FLT: decoding comes before the position check. -/
theorem test_reserved_before_fault : afterWord (·.fault) 0xC0090003#32 State.reset = some false := by decide

/-- V-ENV: the stage after the first and after the eighth rising edge of `commit(0xA5)` from 0xFF. -/
theorem test_env_first_edge :
    (performAll ((commitEvents 0xA5#8).take 5) { State.reset with srStage := 0xFF#8 }).srStage = 0xFE#8 := by decide
theorem test_env_last_edge :
    (performAll ((commitEvents 0xA5#8).take 23) { State.reset with srStage := 0xFF#8 }).srStage = 0xA5#8 := by decide
/-- V-RST: reset from a halted state with every channel on. -/
theorem test_reset_from_halted : (match step { halted with host := [.reset] } with
    | .next t => some (t.fault, t.en, t.srOut, t.trace.drop halted.trace.length)
    | .fault _ => none
    | .refused _ => none) =
    some (false, #v[false, false, false, false], 0x00#8, State.reset.trace) := by decide

/-! ### Witnesses: states and operands that meet the hypotheses of the statements -/

theorem running_settled : BusSettled running :=
  ⟨rfl, rfl, rfl, rfl, by decide, gateEvents true, [], by simp [running, boundary], by simp⟩
theorem running_idle : BusIdle running := ⟨rfl, rfl⟩

/-- Every operand at the end of its range. -/
theorem witness_DecodeInvertsEncode :
    (Instr.setdirspd 255 .rewind (-32768)).wellFormed = true ∧ (Instr.setsspd 255 32767).wellFormed = true ∧
    (Instr.wrpair 255 255 3#2).wellFormed = true := by decide
theorem witness_EncodeInvertsDecode : decode 0xD0FFFF03#32 = .ok (.wrpair 255 255 3#2) := by decide
theorem witness_OpcodeRowsExclusive :
    rowMatches 0x12000000#32 .setdir = true ∧ rowMatches 0xD0FFFF03#32 .wrpair = true := by decide
theorem witness_StepRunsDecodedCommand :
    (presentWord 0x50010000#32 running).host = .command 0x50010000#32 :: [] ∧ running.fault = false ∧
    decode 0x50010000#32 = .ok (.brake 1) ∧ decodeTableWord 32 0x50010000 = some (.brake 1) := by decide
theorem witness_ReservedWordDoesNothing :
    (presentWord 0x13000000#32 running).host = .command 0x13000000#32 :: [] ∧
    decode 0x13000000#32 = .error .direction ∧ decode 0x50010001#32 = .error .mustBeZero ∧
    decode 0xE0000000#32 = .error .opcode := by decide
theorem witness_HaltedBlockDiscardsWords :
    ({ halted with host := [.command 0x90000000#32, .command 0#32, .reset] } : State).fault = true ∧
    ({ halted with host := [.command 0x90000000#32, .command 0#32, .reset] } : State).host =
      [0x90000000#32, 0#32].map HostMove.command ++ [.reset] := by decide
/-- One witness for each of the outcomes: a command, a reset, a reset during a command. -/
theorem witness_FaultLeftOnlyByReset :
    halted.fault = true ∧
    (∃ t, step { halted with host := [.command 0x90000000#32] } = .next t) ∧
    (∃ t, step { halted with host := [.reset] } = .next t) ∧
    (∃ t, step { halted with host := [.resetDuring 0x90000000#32 2] } = .next t) :=
  ⟨rfl, ⟨_, rfl⟩, ⟨_, rfl⟩, ⟨_, rfl⟩⟩
theorem witness_IdleBlockHolds : running.host = [] := rfl
theorem witness_CommandsTakeEffectInOrder :
    (∃ t, step (presentWord 0x50010000#32 running) = .next t) ∧
    (∃ t, step { running with host := [.resetDuring 0x50010000#32 3, .reset] } = .next t) := ⟨⟨_, rfl⟩, ⟨_, rfl⟩⟩
theorem witness_ResetFromAnyState :
    ({ halted with host := [.reset, .command 0#32] } : State).host = .reset :: [.command 0#32] := rfl
/-- 42_pin_and_global_commands.md R88: a reset at the third of `ENPINS`'s four events leaves none of them, one after the fourth
all four, before the 32 events of the reset. -/
theorem test_reset_does_not_split_enpins :
    (match step { running with host := [.resetDuring 0x90000000#32 3] } with
      | .next t => t.trace.drop running.trace.length = State.reset.trace
      | _ => False) ∧
    (match step { running with host := [.resetDuring 0x90000000#32 4] } with
      | .next t => t.trace.drop running.trace.length =
          [.pwmGate 0 true, .pwmGate 1 true, .pwmGate 2 true, .pwmGate 3 true] ++ State.reset.trace
      | _ => False) := ⟨rfl, rfl⟩
/-- Reset before the first event, in the middle of the commit, and after the last event; for the `enableAll` family, on both
sides of the four writes. -/
theorem witness_ResetAbandonsCommand :
    ({ running with host := [.resetDuring 0x50010000#32 0] } : State).host = .resetDuring 0x50010000#32 0 :: [] ∧
    ({ running with host := [.resetDuring 0x50010000#32 14] } : State).host = .resetDuring 0x50010000#32 14 :: [] ∧
    ({ running with host := [.resetDuring 0x50010000#32 99] } : State).host = .resetDuring 0x50010000#32 99 :: [] ∧
    decode 0x50010000#32 = .ok (.brake 1) ∧
    ({ running with host := [.resetDuring 0x90000000#32 3] } : State).host = .resetDuring 0x90000000#32 3 :: [] ∧
    ({ running with host := [.resetDuring 0x90000000#32 4] } : State).host = .resetDuring 0x90000000#32 4 :: [] ∧
    decode 0x90000000#32 = .ok .enpins ∧ decode 0x80000001#32 = .ok (.enall true) ∧ decode 0xA0000000#32 = .ok .dispins := by
  refine ⟨rfl, rfl, rfl, ?_, rfl, rfl, ?_, ?_, ?_⟩ <;> decide
theorem witness_ResetDisablesBeforeLatchClears : (29 : Nat) ≤ 29 ∧ (4 : Nat) ≤ 4 := by decide
theorem witness_CommitLatchesTheByte : BusIdle { running with srStage := 0xFF#8, srOut := 0x3C#8 } := ⟨rfl, rfl⟩
/-- Both sides of the pulse. -/
theorem witness_OutputsChangeOnlyAtThePulse : BusIdle running ∧ (25 : Nat) ≤ 25 ∧ ¬ (26 : Nat) ≤ 25 :=
  ⟨running_idle, by decide, by decide⟩
theorem witness_WrbitReplacesOneBit : (0 : Nat) ≤ 7 ∧ (7 : Nat) ≤ 7 ∧ BusIdle running := ⟨by decide, by decide, running_idle⟩
/-- `hi > lo` and `hi < lo`. -/
theorem witness_WrpairReplacesTwoBits :
    ((7 : Nat) ≤ 7 ∧ (0 : Nat) ≤ 7 ∧ (7 : Nat) ≠ 0 ∧ BusIdle running) ∧
    ((2 : Nat) ≤ 7 ∧ (3 : Nat) ≤ 7 ∧ (2 : Nat) ≠ 3 ∧ BusIdle running) :=
  ⟨⟨by decide, by decide, by decide, running_idle⟩, ⟨by decide, by decide, by decide, running_idle⟩⟩
/-- Each clause at its boundary; the third excludes the second, since its positions are at most 7. -/
theorem witness_PositionFaultsAreTaken :
    (7 : Nat) < 8 ∧ ((7 : Nat) < 8 ∨ (7 : Nat) < 0) ∧ ((7 : Nat) < 0 ∨ (7 : Nat) < 8) ∧ (7 : Nat) ≤ 7 := by decide
theorem witness_SetdirWritesThePair : BusIdle running ∧ (3 : Nat) < 4 := ⟨running_idle, by decide⟩
theorem witness_SetspdWritesTheChannel : (3 : Nat) < 4 := by decide
theorem witness_SetdirspdWritesDirectionThenSpeed : BusIdle running ∧ (3 : Nat) < 4 := ⟨running_idle, by decide⟩
theorem witness_SetsspdFollowsTheSign : BusIdle running ∧ (3 : Nat) < 4 := ⟨running_idle, by decide⟩
theorem witness_SignedSpeedIsDirectionAndSpeed : (-1 : Int) < 0 ∧ (0 : Int) ≤ 0 := by decide
theorem witness_BrakeStopsAtFullDuty : BusIdle running ∧ (3 : Nat) < 4 := ⟨running_idle, by decide⟩
theorem witness_ReleaseClearsTheEnable : (3 : Nat) < 4 := by decide
theorem witness_SetpinWritesTheWiredBit : BusIdle running ∧ (7 : Nat) < 8 := ⟨running_idle, by decide⟩
theorem witness_OutOfRangeOperandsAreSilent :
    (3 : Nat) < 4 ∧ (7 : Nat) < 8 ∧ ((-1 : Int) < 0 ∨ (255 : Int) < -1) ∧ ((256 : Int) < 0 ∨ (255 : Int) < 256) ∧
    255 < (256 : Int).natAbs ∧ 255 < (-256 : Int).natAbs ∧ decode 0x00000000#32 = .error .opcode := by decide
theorem witness_EnableReappliesStoredDuty :
    (∃ t, exec (.enall true) running = .next t) ∧ (∃ t, exec (.enall false) running = .next t) := ⟨⟨_, rfl⟩, ⟨_, rfl⟩⟩
theorem witness_ReleaseThenResume :
    ∃ t, exec (.release (3 : Fin 4)) running = .next t ∧ (∃ u, exec .enpins t = .next u) ∧
      (0 : Int) ≤ 255 ∧ (255 : Int) ≤ 255 ∧ ∃ u, exec (.setspd (3 : Fin 4) 255) t = .next u :=
  ⟨_, rfl, ⟨_, rfl⟩, by decide, by decide, ⟨_, rfl⟩⟩
/-- The commands of the first clause run, and `SETPIN` takes motor 0 from `0b10` to `0b11`. -/
theorem witness_DirectionBitsOfCommands :
    (∃ t, exec (.setdir (0 : Fin 4) .forward) running = .next t) ∧
    (∃ t, exec (.setdir (0 : Fin 4) .rewind) running = .next t) ∧
    (∃ t, exec (.setdir (0 : Fin 4) .stop) running = .next t) ∧
    dirbits running 0 ≠ 0b11#2 ∧
    ∃ t, exec (.setpin 0 true) running = .next t ∧ dirbits t 0 = 0b11#2 :=
  ⟨⟨_, rfl⟩, ⟨_, rfl⟩, ⟨_, rfl⟩, by decide, _, rfl, by decide⟩
theorem witness_MotorStateMachine :
    (∃ t, exec (.setdir (1 : Fin 4) .rewind) running = .next t) ∧
    (∃ t, exec (.setspd (1 : Fin 4) 256) running = .next t) ∧
    (∃ t, exec (.setdirspd (1 : Fin 4) .stop 255) running = .next t) ∧
    (∃ t, exec (.setsspd (1 : Fin 4) (-32768)) running = .next t) ∧
    (∃ t, exec (.brake (1 : Fin 4)) running = .next t) ∧
    (∃ t, exec (.release (1 : Fin 4)) running = .next t) :=
  ⟨⟨_, rfl⟩, ⟨_, rfl⟩, ⟨_, rfl⟩, ⟨_, rfl⟩, ⟨_, rfl⟩, ⟨_, rfl⟩⟩
theorem witness_DriveViewAfterCommands :
    BusSettled running ∧ (1 : Int) ≤ 255 ∧ (255 : Int) ≤ 255 ∧ (1 : Int) ≤ 1 ∧ (1 : Int) ≤ 255 ∧
    (∃ t, exec (.brake (0 : Fin 4)) running = .next t) ∧ (∃ t, exec (.release (0 : Fin 4)) running = .next t) ∧
    (∃ t, exec (.setdirspd (0 : Fin 4) .forward 255) running = .next t) ∧
    (∃ t, exec (.setdirspd (0 : Fin 4) .rewind 1) running = .next t) :=
  ⟨running_settled, by decide, by decide, by decide, by decide, ⟨_, rfl⟩, ⟨_, rfl⟩, ⟨_, rfl⟩, ⟨_, rfl⟩⟩
theorem witness_ChannelCommandsLeaveTheLatch :
    (∃ t, exec (.setspd 0 9) running = .next t) ∧ (∃ t, exec (.release 0) running = .next t) ∧
    (∃ t, exec (.enall true) running = .next t) ∧ (∃ t, exec .enpins running = .next t) ∧
    (∃ t, exec .dispins running = .next t) ∧ (∃ t, exec (.setallspd 9) running = .next t) :=
  ⟨⟨_, rfl⟩, ⟨_, rfl⟩, ⟨_, rfl⟩, ⟨_, rfl⟩, ⟨_, rfl⟩, ⟨_, rfl⟩⟩
theorem witness_LatchCommandsLeaveTheChannels :
    (∃ t, exec (.setdir 0 .rewind) running = .next t) ∧ (∃ t, exec (.setpin 0 true) running = .next t) ∧
    (∃ t, exec (.wrbit 8 true) running = .next t) ∧ (∃ t, exec (.wrpair 0 1 1#2) running = .next t) :=
  ⟨⟨_, rfl⟩, ⟨_, rfl⟩, ⟨_, rfl⟩, ⟨_, rfl⟩⟩
theorem witness_OtherMotorsUnaffected :
    (3 : Fin 4).val ≠ 0 ∧ (0 : Fin 4).val ≠ 4 ∧
    (∃ t, exec (.setdir 0 .rewind) running = .next t) ∧ (∃ t, exec (.setdirspd 0 .rewind 7) running = .next t) ∧
    (∃ t, exec (.setspd 0 7) running = .next t) ∧ (∃ t, exec (.setsspd 0 7) running = .next t) ∧
    (∃ t, exec (.brake 0) running = .next t) ∧ (∃ t, exec (.release 4) running = .next t) :=
  ⟨by decide, by decide, ⟨_, rfl⟩, ⟨_, rfl⟩, ⟨_, rfl⟩, ⟨_, rfl⟩, ⟨_, rfl⟩, ⟨_, rfl⟩⟩
/-- One witness for each outcome. -/
theorem witness_OnlyLatchWritesFault :
    (∃ t, exec (.wrbit 7 false) running = .next t) ∧ (∃ t, exec (.wrbit 8 false) running = .next t) ∧
    (∃ t, exec (.wrpair 2 200 1#2) running = .next t) ∧ (∃ t, exec (.wrpair 7 7 1#2) running = .next t) :=
  ⟨⟨_, rfl⟩, ⟨_, rfl⟩, ⟨_, rfl⟩, ⟨_, rfl⟩⟩
/-- A command that changes the byte and one that does not. -/
theorem witness_CommitExactlyWhenTheByteChanges :
    (∃ t, exec (.setdir 0 .rewind) running = .next t ∧ t.shadow ≠ running.shadow) ∧
    (∃ t, exec (.setdir 0 .forward) running = .next t ∧ t.shadow = running.shadow) :=
  ⟨⟨_, rfl, by decide⟩, ⟨_, rfl, by decide⟩⟩
theorem witness_RunCountsOneCommitPerChange :
    CommandsOnly { running with host := [.command 0x11000000#32, .command 0x11000000#32] } ∧
    ∃ t, Sys2Proof.core.run 2 { running with host := [.command 0x11000000#32, .command 0x11000000#32] } = .next t :=
  ⟨⟨[0x11000000#32, 0x11000000#32], rfl⟩, _, rfl⟩
theorem witness_RepeatedCommandDrivesNoBus :
    ∃ t, exec (.setsspd 0 (-9)) running = .next t ∧ ∃ u, exec (.setsspd 0 (-9)) t = .next u := ⟨_, rfl, _, rfl⟩
theorem witness_PinsFollowTheEvents : ∃ t, exec (.brake 3) running = .next t := ⟨_, rfl⟩
/-- Outputs that disagree with `SHADOW`, and both boundary positions. -/
theorem witness_WrongOutputsStayUntilACommit :
    (0 : Nat) ≤ 7 ∧ (7 : Nat) ≤ 7 ∧ BusIdle { running with srOut := 0x00#8 } ∧
    ({ running with srOut := 0x00#8 } : State).srOut ≠ running.shadow := ⟨by decide, by decide, ⟨rfl, rfl⟩, by decide⟩
theorem witness_StepKeepsBusSettled :
    BusSettled (presentWord 0x50000000#32 running) ∧ ∃ t, step (presentWord 0x50000000#32 running) = .next t :=
  ⟨⟨rfl, rfl, rfl, rfl, by decide, gateEvents true, [], by simp [running, boundary, presentWord], by simp⟩, _, rfl⟩
/-- A running and a halted state. -/
theorem witness_StepKeepsCauseLegal :
    (CauseLegal (presentWord 0xD0020200#32 running) ∧ ∃ t, step (presentWord 0xD0020200#32 running) = .next t) ∧
    (CauseLegal (presentWord 0xD0020200#32 halted) ∧ ∃ t, step (presentWord 0xD0020200#32 halted) = .next t) :=
  ⟨⟨.inl ⟨rfl, rfl⟩, _, rfl⟩, ⟨.inr ⟨rfl, .inl rfl⟩, _, rfl⟩⟩
theorem witness_StepKeepsEnablesFollowTrace :
    EnablesFollowTrace (presentWord 0x60000000#32 running) ∧ ∃ t, step (presentWord 0x60000000#32 running) = .next t :=
  ⟨by unfold EnablesFollowTrace; decide, _, rfl⟩

end Sys2Proof.Tests
end

section
/-! PROOFS. Every step completes (00_scope.md R8, R9), and no step reads the external register back (00_scope.md R7,
20_memory.md R33). -/

namespace Sys2Proof.Proofs

open Sys2Proof.Machine Sys2Proof.Safety

/-! ### Every step completes -/

/-- Every move of the host ends in a next state: a command, a reset, and a reset during a command. -/
theorem hostMove_completes (m : HostMove) (s : State) : ∃ t, hostMove m s = .next t := by
  cases m with
  | command w =>
    obtain ⟨t, ht, _⟩ := acceptWord_effect w s
    exact ⟨t, ht⟩
  | reset => exact ⟨_, rfl⟩
  | resetDuring w k =>
    obtain ⟨t, ht, _⟩ := acceptWord_effect w s
    exact ⟨resetSequence (abandonAfter w k s t), by simp only [hostMove, ht]⟩

/-- Settles O11: the block is idle, or its host moves. -/
theorem everyStepCompletes : Obligations.EveryStepCompletes := by
  intro s
  rcases hs : s.host with _ | ⟨m, rest⟩
  · exact ⟨s, by simp only [step, portStep, hs]⟩
  · obtain ⟨t, ht⟩ := hostMove_completes m { s with host := rest }
    exact ⟨t, by simp only [step, portStep, hs, ht]⟩

/-! ### Operations that do not read the external register -/

@[simp] theorem forgetRegister_shadow (s : State) : (forgetRegister s).shadow = s.shadow := rfl
@[simp] theorem forgetRegister_fault (s : State) : (forgetRegister s).fault = s.fault := rfl
@[simp] theorem forgetRegister_trace (s : State) : (forgetRegister s).trace = s.trace := rfl
@[simp] theorem forgetRegister_host (s : State) : (forgetRegister s).host = s.host := rfl

/-- What the block holds after `f` is the same where the external register was blanked before it. -/
def RegisterBlind (f : State → State) : Prop :=
  ∀ s, forgetRegister (f (forgetRegister s)) = forgetRegister (f s)

theorem registerBlind_id : RegisterBlind fun s => s := fun _ => rfl

/-- One after the other, two blind operations are blind. -/
theorem RegisterBlind.comp {f g : State → State} (hg : RegisterBlind g) (hf : RegisterBlind f) :
    RegisterBlind fun s => g (f s) := by
  intro s
  calc forgetRegister (g (f (forgetRegister s)))
      = forgetRegister (g (forgetRegister (f (forgetRegister s)))) := (hg _).symm
    _ = forgetRegister (g (forgetRegister (f s))) := by rw [hf s]
    _ = forgetRegister (g (f s)) := hg _

/-- A loop of blind operations is blind. -/
theorem registerBlind_foldl {α : Type} {f : α → State → State} (hf : ∀ a, RegisterBlind (f a)) (as : List α) :
    RegisterBlind fun s => as.foldl (fun t a => f a t) s := by
  induction as with
  | nil => exact registerBlind_id
  | cons a as ih => exact ih.comp (hf a)

/-- An event's effect on what the block holds: the register is written by the bus edges and read only into itself
(40_latch_register.md R69, R70). -/
theorem registerBlind_perform (e : Event) : RegisterBlind (perform e) := by
  intro s
  cases e with
  | dig line v => cases line <;> rfl
  | delay t => rfl
  | pwmAna n d => rfl
  | pwmGate n v => rfl

theorem registerBlind_performAll (es : List Event) : RegisterBlind (performAll es) :=
  registerBlind_foldl registerBlind_perform es

theorem registerBlind_raiseFault (c : FaultCause) : RegisterBlind (raiseFault c) := fun _ => rfl

theorem registerBlind_commit (b : Byte) : RegisterBlind (commit b) :=
  (registerBlind_performAll (commitEvents b)).comp (f := setShadow b) fun _ => rfl

/-- The byte wanted is made from `SHADOW` and compared with `SHADOW`, never with the register's outputs
(40_latch_register.md R60, R61). -/
theorem registerBlind_commitIfChanged (cand : Byte → Byte) :
    RegisterBlind fun s => commitIfChanged (cand s.shadow) s := by
  intro s
  change forgetRegister (commitIfChanged (cand s.shadow) (forgetRegister s)) =
    forgetRegister (commitIfChanged (cand s.shadow) s)
  unfold commitIfChanged
  rw [forgetRegister_shadow]
  split
  · rfl
  · exact registerBlind_commit _ s

/-! ### The procedures -/

theorem registerBlind_writeBit (pos : Nat) (v : Bool) : RegisterBlind (writeBit pos v) := by
  intro s
  unfold writeBit
  split
  · rfl
  · exact registerBlind_commitIfChanged (setbit · pos v) s

theorem registerBlind_writeBitPair (hi lo : Nat) (v : BitVec 2) : RegisterBlind (writeBitPair hi lo v) := by
  intro s
  unfold writeBitPair
  split
  · rfl
  · split
    · rfl
    · exact registerBlind_commitIfChanged (fun b => setbit (setbit b hi (v.getLsbD 1)) lo (v.getLsbD 0)) s

theorem registerBlind_setDirection (n : Nat) (d : Direction) : RegisterBlind (setDirection n d) := by
  intro s
  unfold setDirection
  cases motorIndex n with
  | none => rfl
  | some m => exact registerBlind_writeBitPair _ _ _ s

theorem registerBlind_setSpeed (n : Nat) (speed : Int) : RegisterBlind (setSpeed n speed) := by
  intro s
  unfold setSpeed
  cases motorIndex n with
  | none => rfl
  | some m =>
    cases dutyOf speed with
    | none => rfl
    | some d => exact registerBlind_perform (.pwmAna m d) s

theorem registerBlind_setDirectionAndSpeed (n : Nat) (d : Direction) (speed : Int) :
    RegisterBlind (setDirectionAndSpeed n d speed) :=
  (registerBlind_setSpeed n speed).comp (registerBlind_setDirection n d)

theorem registerBlind_setSignedSpeed (n : Nat) (speed : Int) : RegisterBlind (setSignedSpeed n speed) := by
  intro s
  unfold setSignedSpeed
  split
  · exact registerBlind_setDirectionAndSpeed n .rewind (-speed) s
  · exact registerBlind_setDirectionAndSpeed n .forward speed s

theorem registerBlind_releaseMotor (n : Nat) : RegisterBlind (releaseMotor n) := by
  intro s
  unfold releaseMotor
  cases motorIndex n with
  | none => rfl
  | some m => exact registerBlind_perform (.pwmGate m false) s

theorem registerBlind_setSinglePin (n : Nat) (on : Bool) : RegisterBlind (setSinglePin n on) := by
  intro s
  unfold setSinglePin
  cases outputIndex n with
  | none => rfl
  | some i => exact registerBlind_writeBit (latchBitOf i) on s

theorem registerBlind_enableAll (on : Bool) : RegisterBlind (enableAll on) :=
  registerBlind_performAll (gateEvents on)

theorem registerBlind_setAllSpeed (speed : Int) : RegisterBlind (setAllSpeed speed) :=
  registerBlind_foldl (fun n : Fin 4 => registerBlind_setSpeed n speed) channels

theorem registerBlind_resetSequence : RegisterBlind resetSequence := by
  have hchannel (n : Fin 4) : RegisterBlind (resetChannel n) :=
    (registerBlind_perform (.pwmGate n false)).comp (f := setDuty n 0#8) fun _ => rfl
  have hclear : RegisterBlind clearFault := fun _ => rfl
  have hidle : RegisterBlind idleBus := fun _ => rfl
  exact (registerBlind_commit 0#8).comp (hidle.comp ((registerBlind_foldl hchannel channels).comp hclear))

/-! ### Commands, the port and the step -/

/-- `f` answers a next state with the register as it is and with it blanked, and the two agree on what the block holds. -/
def BlindOutcome (f : State → Host.Outcome State Fault Refusal) : Prop :=
  ∀ s, ∃ t t', f s = .next t ∧ f (forgetRegister s) = .next t' ∧ forgetRegister t' = forgetRegister t

/-- An operation that always answers is blind where what it answers is. -/
theorem RegisterBlind.blindOutcome {f : State → State} (hf : RegisterBlind f) : BlindOutcome fun s => .next (f s) :=
  fun s => ⟨_, _, rfl, rfl, hf s⟩

theorem blindOutcome_exec (i : Instr) : BlindOutcome (exec i) := by
  cases i with
  | setdir n d => exact (registerBlind_setDirection n d).blindOutcome
  | setdirspd n d speed => exact (registerBlind_setDirectionAndSpeed n d speed).blindOutcome
  | setspd n speed => exact (registerBlind_setSpeed n speed).blindOutcome
  | setsspd n speed => exact (registerBlind_setSignedSpeed n speed).blindOutcome
  | brake n => exact (registerBlind_setDirectionAndSpeed n .stop 255).blindOutcome
  | release n => exact (registerBlind_releaseMotor n).blindOutcome
  | setpin n on => exact (registerBlind_setSinglePin n on).blindOutcome
  | enall on => exact (registerBlind_enableAll on).blindOutcome
  | enpins => exact (registerBlind_enableAll true).blindOutcome
  | dispins => exact (registerBlind_enableAll false).blindOutcome
  | setallspd speed => exact (registerBlind_setAllSpeed speed).blindOutcome
  | wrbit pos value => exact (registerBlind_writeBit pos value).blindOutcome
  | wrpair hi lo v => exact (registerBlind_writeBitPair hi lo v).blindOutcome

theorem blindOutcome_acceptWord (w : Word) : BlindOutcome (acceptWord w) := by
  intro s
  unfold acceptWord
  rw [forgetRegister_fault]
  cases s.fault with
  | true => exact registerBlind_id.blindOutcome s
  | false =>
    cases decode w with
    | ok i => exact blindOutcome_exec i s
    | error r => exact registerBlind_id.blindOutcome s

/-- Which events of an abandoned command stay is read off the two traces, and nothing else of the state after it. -/
theorem abandonAfter_forgetRegister (w : Word) (k : Nat) (s : State) {t t' : State} (h : t'.trace = t.trace) :
    abandonAfter w k (forgetRegister s) t' = forgetRegister (abandonAfter w k s t) := by
  simp only [abandonAfter, forgetRegister, h]

theorem blindOutcome_hostMove (m : HostMove) : BlindOutcome (hostMove m) := by
  cases m with
  | command w => exact blindOutcome_acceptWord w
  | reset => exact registerBlind_resetSequence.blindOutcome
  | resetDuring w k =>
    intro s
    obtain ⟨t, t', ht, ht', heq⟩ := blindOutcome_acceptWord w s
    have htrace : t'.trace = t.trace := by simpa using congrArg State.trace heq
    refine ⟨resetSequence (abandonAfter w k s t), resetSequence (abandonAfter w k (forgetRegister s) t'),
      by simp only [hostMove, ht], by simp only [hostMove, ht'], ?_⟩
    rw [abandonAfter_forgetRegister w k s htrace]
    exact registerBlind_resetSequence _

theorem blindOutcome_step : BlindOutcome step := by
  intro s
  simp only [step, portStep, forgetRegister_host]
  cases s.host with
  | nil => exact registerBlind_id.blindOutcome s
  | cons m rest => exact blindOutcome_hostMove m { s with host := rest }

/-- Settles O50: both steps agree with the step from the state whose register is blanked. -/
theorem registerIsNeverReadBack : Obligations.RegisterIsNeverReadBack := by
  intro s stage out
  obtain ⟨t, u, ht, hu, htu⟩ := blindOutcome_step s
  obtain ⟨t', u', ht', hu', htu'⟩ := blindOutcome_step { s with srStage := stage, srOut := out }
  have huu' : u = u' := by injection hu.symm.trans hu'
  exact ⟨t, t', ht, ht', by rw [← htu, ← htu', huu']⟩

end Sys2Proof.Proofs
end

section
/-! PROOFS. What each move of the host does to the state and to the pins, and the invariants that follow: the settled latch
register (10_state.md R14, R16), the enables the trace tells (R20, R27), the sticky fault and its cause (R17, R18). -/

namespace Sys2Proof.Proofs

open Sys2Proof.Machine Sys2Proof.Safety

/-! ### One event, seen on the pins -/

/-- Shifting `x` in at bit 0, as the model writes it and as the statements do (40_latch_register.md R69). -/
theorem shiftIn_eq (b : Byte) (x : Bool) :
    (b.extractLsb' 0 7 ++ BitVec.ofBool x : Byte) = (b <<< 1) ||| (if x then 1#8 else 0#8) := by
  refine BitVec.eq_of_getLsbD_eq fun i hi => ?_
  rw [getLsbD_shiftIn]
  rcases i with _ | i
  · cases x <;> simp
  · cases x <;> simp [hi, BitVec.getLsbD_eq_getElem (show i < 8 by omega)]

/-- An event's effect on the pins is the one an observer of the events computes (10_state.md R27). -/
theorem pinsOf_perform (e : Event) (s : State) : pinsOf (perform e s) = eventOnPins (pinsOf s) e := by
  cases e with
  | dig line v =>
    cases line with
    | data => rfl
    | clock => cases hc : s.clock <;> cases v <;> simp [perform, applyEvent, pinsOf, eventOnPins, hc, shiftIn_eq]
    | latch => cases hl : s.latch <;> cases v <;> simp [perform, applyEvent, pinsOf, eventOnPins, hl]
  | delay t => rfl
  | pwmAna n d => rfl
  | pwmGate n v => rfl

theorem pinsOf_performAll (es : List Event) (s : State) :
    pinsOf (performAll es s) = es.foldl eventOnPins (pinsOf s) := by
  induction es generalizing s with
  | nil => rfl
  | cons e es ih => rw [performAll_cons, ih, pinsOf_perform, List.foldl_cons]

/-- Settles O21: one case per event; only a rising `CLOCK` or `LATCH` reaches the register. -/
theorem registerMovesOnRisingEdges : Obligations.RegisterMovesOnRisingEdges := by
  intro e s
  cases e with
  | dig line v =>
    cases line with
    | data => exact ⟨rfl, rfl⟩
    | clock => cases v <;> simp [perform, applyEvent, shiftIn_eq]
    | latch => cases v <;> simp [perform, applyEvent]
  | delay t => exact ⟨rfl, rfl⟩
  | pwmAna n d => exact ⟨rfl, rfl⟩
  | pwmGate n v => exact ⟨rfl, rfl⟩

/-! ### A commit -/

@[simp] theorem commit_shadow (b : Byte) (s : State) : (commit b s).shadow = b := by simp [commit]
@[simp] theorem commit_fault (b : Byte) (s : State) : (commit b s).fault = s.fault := by simp [commit]
@[simp] theorem commit_cause (b : Byte) (s : State) : (commit b s).cause = s.cause := by simp [commit]
@[simp] theorem commit_trace (b : Byte) (s : State) : (commit b s).trace = s.trace ++ commitEvents b := by simp [commit]

@[simp] theorem commitIfChanged_shadow (b : Byte) (s : State) : (commitIfChanged b s).shadow = b := by
  rcases commitIfChanged_cases b s with ⟨hb, h⟩ | ⟨_, h⟩ <;> rw [h]
  · exact hb.symm
  · exact commit_shadow b s

/-- The net effect of a commit on a bus at rest (40_latch_register.md R64, R71, R72). -/
theorem commit_eq_of_busIdle (b : Byte) {s : State} (h : BusIdle s) :
    commit b s =
      { s with
        shadow := b
        data := b.getLsbD 0
        clock := false
        latch := false
        srStage := b
        srOut := b
        trace := s.trace ++ commitEvents b } := by
  obtain ⟨hclock, hlatch⟩ := h
  rw [commit, commitEvents, performAll_append, performAll_shiftEvents b _ (by simpa using hclock),
    performAll_pulseEvents _ (by simpa using hlatch)]
  simp [setShadow]

/-! ### The reset sequence -/

/-- The reset sequence leaves the state of 70_reset_and_hazards.md R111, whatever was before it; its events come after the
trace so far, and the host's later moves stay. -/
theorem resetSequence_eq (s : State) :
    resetSequence s = { State.reset with trace := s.trace ++ resetEvents, host := s.host } := by
  rw [resetSequence, resetChannels_eq, commit_eq_of_busIdle 0#8 ⟨rfl, rfl⟩]
  simp [State.reset, resetEvents, idleBus, clearFault]

/-! ### A step -/

/-- Everything a step can do: nothing, a command's effect (none at all on a halted block), or the reset sequence after some
events of an abandoned command. -/
inductive StepEffect (s : State) : State → Prop
  /-- The host has no move left (60_exceptions.md R108). -/
  | idle (h : s.host = []) : StepEffect s s
  /-- A word is accepted; a halted block discards it (60_exceptions.md R98). -/
  | command (w : Word) (rest : List HostMove) (h : s.host = .command w :: rest) (t : State)
      (effect : Effect { s with host := rest } t) (halted : s.fault = true → t = { s with host := rest }) : StepEffect s t
  /-- A reset, between commands or during one (70_reset_and_hazards.md R109, R111). -/
  | reset (m : HostMove) (rest : List HostMove) (h : s.host = m :: rest)
      (hm : m = .reset ∨ ∃ w k, m = .resetDuring w k) (kept : List Event) :
      StepEffect s { State.reset with trace := s.trace ++ kept ++ resetEvents, host := rest }

/-- A halted block discards every word (60_exceptions.md R98). -/
theorem acceptWord_of_fault (w : Word) {s : State} (h : s.fault = true) : acceptWord w s = .next s := by
  simp [acceptWord, h]

/-- What a step has done, from its answer. -/
theorem stepEffect_of_step {s t : State} (h : step s = .next t) : StepEffect s t := by
  unfold step portStep at h
  rcases hs : s.host with _ | ⟨m, rest⟩ <;> simp only [hs] at h
  · cases h
    exact .idle hs
  · obtain ⟨u, hu, effect⟩ : ∃ u, hostMove m { s with host := rest } = .next u ∧ StepEffect s u := by
      cases m with
      | command w =>
        obtain ⟨u, hu, effect⟩ := acceptWord_effect w { s with host := rest }
        refine ⟨u, hu, .command w rest hs u effect fun hf => ?_⟩
        rw [acceptWord_of_fault w (s := { s with host := rest }) hf] at hu
        cases hu
        rfl
      | reset =>
        refine ⟨_, rfl, ?_⟩
        rw [resetSequence_eq]
        simpa using StepEffect.reset .reset rest hs (.inl rfl) []
      | resetDuring w k =>
        obtain ⟨u, hu, _⟩ := acceptWord_effect w { s with host := rest }
        refine ⟨_, by simp only [hostMove, hu]; rfl, ?_⟩
        rw [resetSequence_eq]
        exact StepEffect.reset (.resetDuring w k) rest hs (.inr ⟨w, k, rfl⟩) _
    rw [hu] at h
    cases h
    exact effect

/-- An invariant of every step: the commands keep it, it does not look at the host's moves, and the reset sequence makes it. -/
theorem step_keeps {P : State → Prop} (effect : ∀ s t, P s → Effect s t → P t)
    (host : ∀ s rest, P s → P { s with host := rest })
    (reset : ∀ before rest, P { State.reset with trace := before ++ resetEvents, host := rest }) :
    ∀ s t, P s → step s = .next t → P t := by
  intro s t hs h
  cases stepEffect_of_step h with
  | idle _ => exact hs
  | command w rest _ _ heffect _ => exact effect _ _ (host s rest hs) heffect
  | reset m rest _ _ kept => exact reset (s.trace ++ kept) rest

/-! ### The latch register stays settled -/

theorem busIdle_of_busSettled {s : State} (h : BusSettled s) : BusIdle s := ⟨h.clockLow, h.latchLow⟩

/-- PWM events may follow what was last latched. -/
theorem lastLatched_append {b : Byte} {trace es : List Event} (h : LastLatched b trace)
    (hes : ∀ e ∈ es, e.isBus = false) : LastLatched b (trace ++ es) := by
  obtain ⟨before, after, rfl, hafter⟩ := h
  refine ⟨before, after ++ es, by simp, fun e he => ?_⟩
  exact (List.mem_append.1 he).elim (hafter e) (hes e)

/-- A trace that ends with a commit has it as the last. -/
theorem lastLatched_commitEvents (b : Byte) (before : List Event) : LastLatched b (before ++ commitEvents b) :=
  ⟨before, [], by simp, by simp⟩

theorem busSettled_commit (b : Byte) {s : State} (h : BusIdle s) : BusSettled (commit b s) := by
  rw [commit_eq_of_busIdle b h]
  exact ⟨rfl, rfl, rfl, rfl, rfl, lastLatched_commitEvents b s.trace⟩

theorem busSettled_perform {s : State} (h : BusSettled s) {e : Event} (he : e.isBus = false) :
    BusSettled (perform e s) := by
  obtain ⟨hdata, hclock, hlatch, hstage, hout⟩ := perform_pwm_bus he s
  constructor
  · rw [hout, perform_shadow, h.outputs]
  · rw [hstage, perform_shadow, h.stage]
  · rw [hclock, h.clockLow]
  · rw [hlatch, h.latchLow]
  · rw [hdata, perform_shadow, h.dataLast]
  · rw [perform_shadow, perform_trace]
    exact lastLatched_append h.lastLatched (by simpa using he)

theorem busSettled_performAll {s : State} (h : BusSettled s) {es : List Event} (hes : ∀ e ∈ es, e.isBus = false) :
    BusSettled (performAll es s) := by
  induction es generalizing s with
  | nil => exact h
  | cons e es ih => exact ih (busSettled_perform h (hes e (by simp))) fun e' he' => hes e' (by simp [he'])

/-- A command leaves the latch register settled: a fault touches none of it, a commit settles it, PWM events leave it. -/
theorem busSettled_effect {s t : State} (h : BusSettled s) (he : Effect s t) : BusSettled t := by
  cases he with
  | fault c => exact ⟨h.outputs, h.stage, h.clockLow, h.latchLow, h.dataLast, h.lastLatched⟩
  | quiet es hes => exact busSettled_performAll h hes
  | commits b _ es hes => exact busSettled_performAll (busSettled_commit b (busIdle_of_busSettled h)) hes

/-- The state after a reset is settled, whatever the trace before it. -/
theorem busSettled_afterReset (before : List Event) (rest : List HostMove) :
    BusSettled { State.reset with trace := before ++ resetEvents, host := rest } := by
  refine ⟨rfl, rfl, rfl, rfl, by simp [State.reset], ?_⟩
  rw [resetEvents, ← List.append_assoc]
  exact lastLatched_commitEvents 0#8 _

/-- Settles O53: every command and every reset sequence leaves the latch register settled. -/
theorem stepKeepsBusSettled : Obligations.StepKeepsBusSettled :=
  step_keeps (fun _ _ => busSettled_effect)
    (fun _ _ h => ⟨h.outputs, h.stage, h.clockLow, h.latchLow, h.dataLast, h.lastLatched⟩) busSettled_afterReset

/-- Settles O52: the reset sequence after an empty trace. -/
theorem resetBusSettled : Obligations.ResetBusSettled := busSettled_afterReset [] []

/-! ### The enables follow the trace -/

/-- An event leaves in `EN[n]` what it wrote there, or what was there (10_state.md R27). -/
theorem perform_en (e : Event) (s : State) (n : Fin 4) : (perform e s).en[n] = (enableWrite n e).getD s.en[n] := by
  have written (m : Fin 4) (v : Bool) : (s.en.set m v)[n] = (if m = n then some v else none).getD s.en[n] := by
    by_cases hmn : m = n
    · simp [hmn]
    · simp [hmn, Fin.val_ne_of_ne hmn]
  cases e with
  | dig line v => cases line <;> rfl
  | delay t => rfl
  | pwmAna m d => exact written m true
  | pwmGate m v => exact written m v

theorem enablesFollowTrace_perform {s : State} (h : EnablesFollowTrace s) (e : Event) :
    EnablesFollowTrace (perform e s) := by
  intro n
  rw [perform_en, perform_trace, List.filterMap_append, List.getLast?_append, h n]
  cases hw : enableWrite n e <;> simp [hw]

theorem enablesFollowTrace_performAll {s : State} (h : EnablesFollowTrace s) (es : List Event) :
    EnablesFollowTrace (performAll es s) := by
  induction es generalizing s with
  | nil => exact h
  | cons e es ih => exact ih (enablesFollowTrace_perform h e)

/-- A command writes enables by its events alone. -/
theorem enablesFollowTrace_effect {s t : State} (h : EnablesFollowTrace s) (he : Effect s t) : EnablesFollowTrace t := by
  cases he with
  | fault c => exact h
  | quiet es _ => exact enablesFollowTrace_performAll h es
  | commits b _ es _ =>
    have hshadow : EnablesFollowTrace (setShadow b s) := h
    exact enablesFollowTrace_performAll (enablesFollowTrace_performAll hshadow (commitEvents b)) es

/-- The last write of every channel's pin in the reset sequence is an off (70_reset_and_hazards.md R110). -/
theorem filterMap_enableWrite_resetEvents (n : Fin 4) : resetEvents.filterMap (enableWrite n) = [false] := by
  revert n; decide

theorem enablesFollowTrace_afterReset (before : List Event) (rest : List HostMove) :
    EnablesFollowTrace { State.reset with trace := before ++ resetEvents, host := rest } := by
  intro n
  rw [List.filterMap_append, filterMap_enableWrite_resetEvents, List.getLast?_append]
  simp [State.reset]

/-- Settles O57: an event writes an enable and the trace together, and a reset writes every channel off. -/
theorem stepKeepsEnablesFollowTrace : Obligations.StepKeepsEnablesFollowTrace :=
  step_keeps (fun _ _ => enablesFollowTrace_effect) (fun _ _ h => h) enablesFollowTrace_afterReset

/-! ### The fault and its cause -/

theorem causeLegal_raiseFault (c : FaultCause) (s : State) : CauseLegal (raiseFault c s) := by
  cases c with
  | posRange => exact .inr ⟨rfl, .inl rfl⟩
  | pairAlias => exact .inr ⟨rfl, .inr rfl⟩

/-- A command takes a named fault or leaves `FAULT` and `CAUSE` (60_exceptions.md R95 to R97). -/
theorem causeLegal_effect {s t : State} (h : CauseLegal s) (he : Effect s t) : CauseLegal t := by
  cases he with
  | fault c => exact causeLegal_raiseFault c s
  | quiet es _ => simpa [CauseLegal] using h
  | commits b _ es _ => simpa [CauseLegal] using h

/-- Settles O55: a command names the fault it takes, and a reset clears both. -/
theorem stepKeepsCauseLegal : Obligations.StepKeepsCauseLegal :=
  step_keeps (fun _ _ => causeLegal_effect) (fun _ _ h => h) fun _ _ => .inl ⟨rfl, rfl⟩

/-- Settles O54: the reset state has no fault and no cause. -/
theorem resetCauseLegal : Obligations.ResetCauseLegal := .inl ⟨rfl, rfl⟩

/-- Settles O9: a halted block discards a word, and only a reset sequence clears its fault. -/
theorem faultLeftOnlyByReset : Obligations.FaultLeftOnlyByReset := by
  intro s t hfault h
  cases stepEffect_of_step h with
  | idle _ => exact .inl ⟨hfault, rfl⟩
  | command w rest _ _ _ halted =>
    rw [halted hfault]
    exact .inl ⟨hfault, rfl⟩
  | reset m rest hs hm kept =>
    refine .inr ⟨rfl, rfl, rest, ?_⟩
    rcases hm with rfl | ⟨w, k, rfl⟩
    · exact .inl hs
    · exact .inr ⟨w, k, hs⟩

/-! ### What a command appends to the trace -/

/-- Settles O46: a command takes a fault, emits PWM events alone, or commits a byte other than `SHADOW` before them. -/
theorem commitExactlyWhenTheByteChanges : Obligations.CommitExactlyWhenTheByteChanges := by
  intro i s t h
  cases effect_of_exec h with
  | fault c => exact ⟨[], by simp, by simp [raiseFault]⟩
  | quiet es hes => exact ⟨es, hes, by simp⟩
  | commits b hb es hes => exact ⟨es, hes, by simp [hb]⟩

/-- Settles O49: a fault touches no pin, and the rest of a command's effect on them is its events, one by one. -/
theorem pinsFollowTheEvents : Obligations.PinsFollowTheEvents := by
  intro i s t h
  cases effect_of_exec h with
  | fault c => exact ⟨[], by simp [raiseFault], rfl⟩
  | quiet es _ => exact ⟨es, performAll_trace es s, pinsOf_performAll es s⟩
  | commits b _ es _ =>
    refine ⟨commitEvents b ++ es, by simp, ?_⟩
    rw [pinsOf_performAll, commit, pinsOf_performAll, List.foldl_append]
    rfl

end Sys2Proof.Proofs
end

section
/-! PROOFS. The wiring and the state right after reset (10_state.md R21, R30), the direction bits the commands make (R26) and
the drive view of what they leave (R28). -/

namespace Sys2Proof.Proofs

open Sys2Proof.Machine Sys2Proof.Safety

/-! ### The wiring and the reset values -/

/-- Settles O41: the table is read off, and its injectivity and its pairs are checked on all indices. -/
theorem wiringTables : Obligations.WiringTables := by
  refine ⟨rfl, rfl, rfl, rfl, rfl, rfl, rfl, rfl, ?_, ?_, rfl⟩
  · decide
  · decide

/-- Settles O13: the registers and the trace are read off; the channels and the per-motor view are checked on all motors. -/
theorem resetStateValues : Obligations.ResetStateValues := by
  refine ⟨rfl, rfl, rfl, rfl, rfl, rfl, rfl, rfl, ?_, rfl, rfl, rfl⟩
  decide

/-! ### Which operations write `SHADOW` -/

@[simp] theorem setSpeed_shadow (n : Nat) (x : Int) (s : State) : (setSpeed n x s).shadow = s.shadow := by
  rcases setSpeed_cases n x s with ⟨_, h⟩ | ⟨m, _, _, _, h⟩ <;> simp [h]

@[simp] theorem releaseMotor_shadow (n : Nat) (s : State) : (releaseMotor n s).shadow = s.shadow := by
  rcases releaseMotor_cases n s with ⟨_, h⟩ | ⟨m, _, h⟩ <;> simp [h]

@[simp] theorem enableAll_shadow (on : Bool) (s : State) : (enableAll on s).shadow = s.shadow := by simp [enableAll]

@[simp] theorem setAllSpeed_shadow (x : Int) (s : State) : (setAllSpeed x s).shadow = s.shadow := by
  rcases setAllSpeed_cases x s with ⟨_, h⟩ | ⟨_, _, h⟩ <;> simp [h]

/-! ### Direction bits -/

/-- The pairs of two different motors have no position in common (10_state.md R21). -/
theorem pair_positions_disjoint (m n : Fin 4) (h : m ≠ n) :
    highPosition m ≠ highPosition n ∧ highPosition m ≠ lowPosition n ∧
    lowPosition m ≠ highPosition n ∧ lowPosition m ≠ lowPosition n := by
  revert m n; decide

/-- A 2-bit value is made of its two bits, the high one first. -/
theorem ofBool_append_ofBool (v : BitVec 2) : BitVec.ofBool (v.getLsbD 1) ++ BitVec.ofBool (v.getLsbD 0) = v := by
  revert v; decide

/-- Writing motor `n`'s pair puts `v` there and leaves every other motor's pair (41_motor_commands.md R76,
42_pin_and_global_commands.md R93). -/
theorem pairOf_setbit_pair (b : Byte) (v : BitVec 2) (n m : Fin 4) :
    pairOf (setbit (setbit b (highPosition n) (v.getLsbD 1)) (lowPosition n) (v.getLsbD 0)) m =
      if m = n then v else pairOf b m := by
  obtain ⟨hm, lm, _⟩ := pair_positions m
  obtain ⟨hn, ln, hln⟩ := pair_positions n
  have bit {i : Nat} (hi : i ≤ 7) :
      (setbit (setbit b (highPosition n) (v.getLsbD 1)) (lowPosition n) (v.getLsbD 0)).getLsbD i =
        if i = lowPosition n then v.getLsbD 0 else if i = highPosition n then v.getLsbD 1 else b.getLsbD i := by
    rw [getLsbD_setbit _ _ (by omega) (by omega), getLsbD_setbit _ _ (by omega) (by omega)]
  rw [pairOf, bit hm, bit lm]
  by_cases hmn : m = n
  · subst hmn
    rw [if_neg hln, if_pos rfl, if_pos rfl, if_pos rfl, ofBool_append_ofBool]
  · obtain ⟨h1, h2, h3, h4⟩ := pair_positions_disjoint m n hmn
    rw [if_neg h2, if_neg h1, if_neg h4, if_neg h3, if_neg hmn]
    rfl

/-- What `setDirection` makes of every motor's pair. -/
theorem dirbits_setDirection (n : Nat) (d : Direction) (s : State) (m : Fin 4) :
    dirbits (setDirection n d s) m = if m.val = n then dirCode d else dirbits s m := by
  rcases setDirection_cases n d s with ⟨hn, h⟩ | ⟨k, rfl, h⟩ <;> rw [h]
  · rw [if_neg (by omega)]
  · rw [dirbits, commitIfChanged_shadow, pairOf_setbit_pair]
    simp [Fin.ext_iff, dirbits]

/-- `0b11` is "the code of no Direction" (10_state.md R26). -/
theorem dirCode_ne (d : Direction) : dirCode d ≠ 0b11#2 := by
  cases d <;> decide

/-- A direction written takes no pair to `0b11`. -/
theorem dirbits_setDirection_ne {n : Nat} {d : Direction} {s : State} {m : Fin 4} (h : dirbits s m ≠ 0b11#2) :
    dirbits (setDirection n d s) m ≠ 0b11#2 := by
  rw [dirbits_setDirection]
  split
  · exact dirCode_ne d
  · exact h

@[simp] theorem dirbits_setSpeed (n : Nat) (x : Int) (s : State) (m : Fin 4) :
    dirbits (setSpeed n x s) m = dirbits s m := by
  simp [dirbits]

@[simp] theorem dirbits_setDirectionAndSpeed (n : Nat) (d : Direction) (x : Int) (s : State) (m : Fin 4) :
    dirbits (setDirectionAndSpeed n d x s) m = dirbits (setDirection n d s) m := dirbits_setSpeed n x _ m

/-- Everything `setSignedSpeed` can do (41_motor_commands.md R79). -/
theorem setSignedSpeed_cases (n : Nat) (x : Int) (s : State) :
    (x < 0 ∧ setSignedSpeed n x s = setDirectionAndSpeed n .rewind (-x) s) ∨
    (0 ≤ x ∧ setSignedSpeed n x s = setDirectionAndSpeed n .forward x s) := by
  unfold setSignedSpeed
  split
  · exact .inl ⟨‹_›, rfl⟩
  · exact .inr ⟨by omega, rfl⟩

/-- Of the commands, only `SETPIN`, `WRBIT` and `WRPAIR` can take a pair to `0b11` (10_state.md R26). -/
theorem latchWrite_of_dirbits_0b11 {i : Instr} {s t : State} {m : Fin 4} (hs : dirbits s m ≠ 0b11#2) (h : exec i s = .next t)
    (ht : dirbits t m = 0b11#2) :
    (∃ n on, i = .setpin n on) ∨ (∃ pos v, i = .wrbit pos v) ∨ (∃ hi lo v, i = .wrpair hi lo v) := by
  have direction {n d} (h' : dirbits t m = dirbits (setDirection n d s) m) : False :=
    dirbits_setDirection_ne hs (h'.symm.trans ht)
  have kept (h' : t.shadow = s.shadow) : False := hs (by rw [← ht, dirbits, dirbits, h'])
  cases i with
  | setdir n d => cases h; exact (direction rfl).elim
  | setdirspd n d x => cases h; exact (direction (dirbits_setDirectionAndSpeed n d x s m)).elim
  | setspd n x => cases h; exact (kept (setSpeed_shadow n x s)).elim
  | setsspd n x =>
    cases h
    rcases setSignedSpeed_cases n x s with ⟨_, h'⟩ | ⟨_, h'⟩
    · exact (direction (by rw [h', dirbits_setDirectionAndSpeed])).elim
    · exact (direction (by rw [h', dirbits_setDirectionAndSpeed])).elim
  | brake n => cases h; exact (direction (dirbits_setDirectionAndSpeed n .stop 255 s m)).elim
  | release n => cases h; exact (kept (releaseMotor_shadow n s)).elim
  | setpin n on => exact .inl ⟨n, on, rfl⟩
  | enall on => cases h; exact (kept (enableAll_shadow on s)).elim
  | enpins => cases h; exact (kept (enableAll_shadow true s)).elim
  | dispins => cases h; exact (kept (enableAll_shadow false s)).elim
  | setallspd x => cases h; exact (kept (setAllSpeed_shadow x s)).elim
  | wrbit pos v => exact .inr (.inl ⟨pos, v, rfl⟩)
  | wrpair hi lo v => exact .inr (.inr ⟨hi, lo, v, rfl⟩)

/-- The reset state but for motor 0's high bit: its pair is `0b10`. -/
def motor0Forward : State := { State.reset with shadow := 0x04#8 }

/-- Settles O38: a direction writes its own code; `SETPIN`, `WRBIT` and `WRPAIR` each make `0b11` of motor 0 from Forward or
from Stop. -/
theorem directionBitsOfCommands : Obligations.DirectionBitsOfCommands := by
  have setdir {m : Fin 4} {d : Direction} {s t : State} (h : exec (.setdir m d) s = .next t) :
      dirbits t m = dirCode d := by
    cases h
    rw [dirbits_setDirection, if_pos rfl]
  refine ⟨fun m s t => ⟨setdir, setdir, setdir⟩, dirCode_ne, fun i s t m => latchWrite_of_dirbits_0b11, ?_, ?_, ?_⟩
  · exact ⟨motor0Forward, _, 0, true, 0, by decide, rfl, by decide⟩
  · exact ⟨motor0Forward, _, 3, true, 0, by decide, rfl, by decide⟩
  · exact ⟨State.reset, _, 2, 3, 0b11#2, 0, by decide, rfl, by decide⟩

/-! ### The drive view -/

/-- A speed in 0..255 is presented at its motor's pin (10_state.md R20, 41_motor_commands.md R77). -/
theorem pwmOut_setSpeed {x : Int} (h0 : 0 ≤ x) (h1 : x ≤ 255) (m : Fin 4) (s : State) :
    pwmOut (setSpeed m x s) m = BitVec.ofInt 8 x := by
  simp [setSpeed, dutyOf, h0, h1, perform, applyEvent, pwmOut]

/-- A speed in 1..255 is a duty other than 0. -/
theorem ofInt_ne_zero {x : Int} (h0 : 1 ≤ x) (h1 : x ≤ 255) : BitVec.ofInt 8 x ≠ 0#8 := by
  intro h
  have := congrArg BitVec.toInt h
  simp [BitVec.toInt_ofInt, Int.bmod] at this
  omega

/-- On a settled latch register the drive view of a motor whose pin presents a duty is that of its direction bits. -/
theorem driveOf_setDirectionAndSpeed {m : Fin 4} {d : Direction} {x : Int} {s t : State} (hs : BusSettled s)
    (h0 : 1 ≤ x) (h1 : x ≤ 255) (ht : exec (.setdirspd m d x) s = .next t) :
    driveOf t m = match d with
      | .forward => .forward (BitVec.ofInt 8 x)
      | .rewind => .rewind (BitVec.ofInt 8 x)
      | .stop => if BitVec.ofInt 8 x = 255#8 then .braked else .notStated := by
  have hout : t.srOut = t.shadow := (busSettled_effect hs (effect_of_exec ht)).outputs
  cases ht
  have hpwm : pwmOut (setDirectionAndSpeed m d x s) m = BitVec.ofInt 8 x := pwmOut_setSpeed (by omega) h1 m _
  have hpair : pairOf (setDirectionAndSpeed m d x s).srOut m = dirCode d := by
    rw [hout, ← dirbits, dirbits_setDirectionAndSpeed, dirbits_setDirection, if_pos rfl]
  rw [driveOf, hpwm, hpair, if_neg (ofInt_ne_zero h0 h1)]
  cases d <;> simp [dirCode]

/-- A released motor presents duty 0 (10_state.md R20, 41_motor_commands.md R85). -/
theorem pwmOut_releaseMotor (m : Fin 4) (s : State) : pwmOut (releaseMotor m s) m = 0#8 := by
  simp [releaseMotor, perform, applyEvent, pwmOut]

/-- Settles O40: a brake is Stop at full duty, a release presents duty 0. -/
theorem driveViewAfterCommands : Obligations.DriveViewAfterCommands := by
  intro m x s t hs h0 h1
  refine ⟨fun h => ?_, fun h => ?_, fun h => ?_, fun h => ?_⟩
  · exact driveOf_setDirectionAndSpeed (d := .stop) hs (by decide) (by decide) h
  · cases h
    rw [driveOf, if_pos (pwmOut_releaseMotor m s)]
  · exact driveOf_setDirectionAndSpeed hs h0 h1 h
  · exact driveOf_setDirectionAndSpeed hs h0 h1 h

end Sys2Proof.Proofs
end

section
/-! PROOFS. The latch byte as the block's storage: program order (20_memory.md R41), the order of the bits on the wire (R34),
and the command given twice, which drives no bus the second time (R38). -/

namespace Sys2Proof.Proofs

open Sys2Proof.Machine

/-! ### Program order -/

@[simp] theorem commit_host (b : Byte) (s : State) : (commit b s).host = s.host := by simp [commit]

/-- A command leaves the host's later moves, and its events come after the trace so far. -/
theorem effect_appends {s t : State} (h : Effect s t) : t.host = s.host ∧ ∃ es, t.trace = s.trace ++ es := by
  cases h with
  | fault c => exact ⟨rfl, [], by simp [raiseFault]⟩
  | quiet es _ => exact ⟨by simp, es, by simp⟩
  | commits b _ es _ => exact ⟨by simp, commitEvents b ++ es, by simp⟩

/-- Settles O12: an idle step has no move to take, a word's effect appends to the trace, and so does a reset sequence. -/
theorem commandsTakeEffectInOrder : Obligations.CommandsTakeEffectInOrder := by
  intro s t h
  cases stepEffect_of_step h with
  | idle hs => exact ⟨by simp [hs], [], by simp⟩
  | command w rest hs _ effect _ =>
    obtain ⟨hhost, htrace⟩ := effect_appends effect
    exact ⟨by simpa [hs] using hhost, htrace⟩
  | reset m rest hs _ kept => exact ⟨by simp [hs], kept ++ resetEvents, by simp⟩

/-! ### The wire -/

/-- Settles O17: the 28 events are a list in which only the eight bits are unknown, so both lines' levels are read off. -/
theorem wireOrderIsMostSignificantFirst : Obligations.WireOrderIsMostSignificantFirst :=
  fun _ => ⟨rfl, rfl⟩

/-! ### A bit written twice -/

/-- Writing a bit the value it has changes nothing (20_memory.md R38). -/
theorem setbit_eq_self {b : Byte} {p : Nat} {x : Bool} (hp : p < 8) (h : b.getLsbD p = x) : setbit b p x = b := by
  refine BitVec.eq_of_getLsbD_eq fun i hi => ?_
  rw [getLsbD_setbit b x hp hi]
  split
  · next hip => rw [hip, h]
  · rfl

theorem setbit_setbit_same (b : Byte) {p : Nat} (x : Bool) (hp : p < 8) :
    setbit (setbit b p x) p x = setbit b p x :=
  setbit_eq_self hp (by simp [getLsbD_setbit b x hp hp])

/-- Writing a pair of different bits the values just written there changes nothing. -/
theorem setbit_setbit_pair (b : Byte) {hi lo : Nat} (x y : Bool) (hhi : hi < 8) (hlo : lo < 8) (hne : hi ≠ lo) :
    setbit (setbit (setbit (setbit b hi x) lo y) hi x) lo y = setbit (setbit b hi x) lo y := by
  have high : (setbit (setbit b hi x) lo y).getLsbD hi = x := by
    rw [getLsbD_setbit _ y hlo hhi, if_neg hne, getLsbD_setbit b x hhi hhi, if_pos rfl]
  rw [setbit_eq_self hhi high, setbit_setbit_same _ y hlo]

/-! ### Operations that settle `SHADOW` -/

/-- Given again from any state with the `SHADOW` it left, `op` leaves `SHADOW` as it is: PWM writes may come in between. -/
def SettlesShadow (op : State → State) : Prop :=
  ∀ s t, t.shadow = (op s).shadow → (op t).shadow = t.shadow

/-- An operation that never writes `SHADOW` settles it. -/
theorem settlesShadow_of_shadow_eq {op : State → State} (h : ∀ s, (op s).shadow = s.shadow) : SettlesShadow op :=
  fun _ t _ => h t

theorem settlesShadow_writeBit (pos : Nat) (v : Bool) : SettlesShadow (writeBit pos v) := by
  intro s t ht
  rcases writeBit_cases pos v t with ⟨_, h⟩ | ⟨hpos, h⟩ <;> rw [h]
  · rfl
  · rcases writeBit_cases pos v s with ⟨_, _⟩ | ⟨_, hs⟩
    · omega
    · rw [hs, commitIfChanged_shadow] at ht
      rw [commitIfChanged_shadow, ht, setbit_setbit_same _ v (by omega)]

theorem settlesShadow_writeBitPair (hi lo : Nat) (v : BitVec 2) : SettlesShadow (writeBitPair hi lo v) := by
  intro s t ht
  rcases writeBitPair_cases hi lo v t with ⟨_, h⟩ | ⟨_, _, h⟩ | ⟨hhi, hlo, hne, h⟩ <;> rw [h]
  · rfl
  · rfl
  · rcases writeBitPair_cases hi lo v s with ⟨_, _⟩ | ⟨_, _, _⟩ | ⟨_, _, _, hs⟩
    · omega
    · omega
    · rw [hs, commitIfChanged_shadow] at ht
      rw [commitIfChanged_shadow, ht, setbit_setbit_pair _ _ _ (by omega) (by omega) hne]

theorem settlesShadow_setDirection (n : Nat) (d : Direction) : SettlesShadow (setDirection n d) := by
  unfold setDirection
  cases motorIndex n with
  | none => exact settlesShadow_of_shadow_eq fun _ => rfl
  | some m => exact settlesShadow_writeBitPair _ _ _

theorem settlesShadow_setSinglePin (n : Nat) (on : Bool) : SettlesShadow (setSinglePin n on) := by
  unfold setSinglePin
  cases outputIndex n with
  | none => exact settlesShadow_of_shadow_eq fun _ => rfl
  | some i => exact settlesShadow_writeBit _ _

/-- The speed's event does not touch what the direction has settled (41_motor_commands.md R78). -/
theorem settlesShadow_setDirectionAndSpeed (n : Nat) (d : Direction) (x : Int) :
    SettlesShadow (setDirectionAndSpeed n d x) := by
  intro s t ht
  rw [setDirectionAndSpeed, setSpeed_shadow] at ht ⊢
  exact settlesShadow_setDirection n d s t ht

theorem settlesShadow_setSignedSpeed (n : Nat) (x : Int) : SettlesShadow (setSignedSpeed n x) := by
  unfold setSignedSpeed
  split
  · exact settlesShadow_setDirectionAndSpeed n .rewind (-x)
  · exact settlesShadow_setDirectionAndSpeed n .forward x

/-- Every command is an operation that settles `SHADOW` (20_memory.md R38). -/
theorem exec_settlesShadow (i : Instr) : ∃ op, SettlesShadow op ∧ ∀ s, exec i s = .next (op s) := by
  cases i with
  | setdir n d => exact ⟨_, settlesShadow_setDirection n d, fun _ => rfl⟩
  | setdirspd n d x => exact ⟨_, settlesShadow_setDirectionAndSpeed n d x, fun _ => rfl⟩
  | setspd n x => exact ⟨_, settlesShadow_of_shadow_eq (setSpeed_shadow n x), fun _ => rfl⟩
  | setsspd n x => exact ⟨_, settlesShadow_setSignedSpeed n x, fun _ => rfl⟩
  | brake n => exact ⟨_, settlesShadow_setDirectionAndSpeed n .stop 255, fun _ => rfl⟩
  | release n => exact ⟨_, settlesShadow_of_shadow_eq (releaseMotor_shadow n), fun _ => rfl⟩
  | setpin n on => exact ⟨_, settlesShadow_setSinglePin n on, fun _ => rfl⟩
  | enall on => exact ⟨_, settlesShadow_of_shadow_eq (enableAll_shadow on), fun _ => rfl⟩
  | enpins => exact ⟨_, settlesShadow_of_shadow_eq (enableAll_shadow true), fun _ => rfl⟩
  | dispins => exact ⟨_, settlesShadow_of_shadow_eq (enableAll_shadow false), fun _ => rfl⟩
  | setallspd x => exact ⟨_, settlesShadow_of_shadow_eq (setAllSpeed_shadow x), fun _ => rfl⟩
  | wrbit pos v => exact ⟨_, settlesShadow_writeBit pos v, fun _ => rfl⟩
  | wrpair hi lo v => exact ⟨_, settlesShadow_writeBitPair hi lo v, fun _ => rfl⟩

/-- A command given twice leaves `SHADOW` the second time as the first time left it. -/
theorem shadow_of_exec_twice {i : Instr} {s t u : State} (ht : exec i s = .next t) (hu : exec i t = .next u) :
    u.shadow = t.shadow := by
  obtain ⟨op, settles, hop⟩ := exec_settlesShadow i
  rw [hop] at ht hu
  cases ht
  cases hu
  exact settles s _ rfl

/-! ### No change of `SHADOW`, no bus activity -/

/-- PWM events leave the external register as it is (10_state.md R27). -/
theorem performAll_pwm_register {es : List Event} (h : ∀ e ∈ es, e.isBus = false) (s : State) :
    (performAll es s).srStage = s.srStage ∧ (performAll es s).srOut = s.srOut := by
  induction es generalizing s with
  | nil => exact ⟨rfl, rfl⟩
  | cons e es ih =>
    obtain ⟨_, _, _, hstage, hout⟩ := perform_pwm_bus (h e (by simp)) s
    obtain ⟨hstage', hout'⟩ := ih (fun e' he' => h e' (by simp [he'])) (perform e s)
    exact ⟨hstage'.trans hstage, hout'.trans hout⟩

/-- A command that leaves `SHADOW` as it was commits nothing: the external register stays, and no bus event is emitted
(40_latch_register.md R65). -/
theorem effect_noBus_of_shadow_eq {s t : State} (h : Effect s t) (hshadow : t.shadow = s.shadow) :
    t.srOut = s.srOut ∧ t.srStage = s.srStage ∧ ∃ es, t.trace = s.trace ++ es ∧ ∀ e ∈ es, e.isBus = false := by
  cases h with
  | fault c => exact ⟨rfl, rfl, [], by simp [raiseFault]⟩
  | quiet es hes =>
    obtain ⟨hstage, hout⟩ := performAll_pwm_register hes s
    exact ⟨hout, hstage, es, performAll_trace es s, hes⟩
  | commits b hb es _ => exact absurd (by simpa using hshadow) hb

/-- Settles O48: the second execution does not change `SHADOW`, so it is none that commits. -/
theorem repeatedCommandDrivesNoBus : Obligations.RepeatedCommandDrivesNoBus := by
  intro i s t u ht hu
  have hshadow := shadow_of_exec_twice ht hu
  exact ⟨hshadow, effect_noBus_of_shadow_eq (effect_of_exec hu) hshadow⟩

end Sys2Proof.Proofs
end

section
/-! PROOFS. The command word: encoding and decoding agree (30_encoding.md R46 to R55), and what a step does with the word
the host presents (R45, R56). -/

namespace Sys2Proof.Proofs

open Sys2Proof.Machine Sys2Proof.Laws

/-! ### The rows of the opcode map -/

/-- Rows differ in `op` (30_encoding.md R48). -/
theorem rowOp_injective {r r' : Opcode} (h : rowOp r = rowOp r') : r = r' := by
  revert h
  cases r <;> cases r' <;> decide

/-- Settles O3: a row that matches fixes `op`, and rows differ in `op`. -/
theorem opcodeRowsExclusive : Obligations.OpcodeRowsExclusive := by
  intro w r r' h h'
  obtain ⟨hop, _⟩ := (rowMatches_iff w r).1 h
  obtain ⟨hop', _⟩ := (rowMatches_iff w r').1 h'
  exact rowOp_injective (hop.symm.trans hop')

/-! ### Decoding what was encoded -/

/-- An instruction's word matches its own row. -/
theorem rowMatches_encode (i : Instr) : rowMatches (encode i) (rowOfInstr i) = true := by
  cases i with
  | setdir n d => exact WordMatchesRow.setdir n d
  | setdirspd n d x => exact WordMatchesRow.setdirspd n d x
  | setspd n x => exact WordMatchesRow.setspd n x
  | setsspd n x => exact WordMatchesRow.setsspd n x
  | brake n => exact WordMatchesRow.brake n
  | release n => exact WordMatchesRow.release n
  | setpin n on => exact WordMatchesRow.setpin n on
  | enall on => exact WordMatchesRow.enall on
  | enpins => exact WordMatchesRow.enpins
  | dispins => exact WordMatchesRow.dispins
  | setallspd x => exact WordMatchesRow.setallspd x
  | wrbit pos v => exact WordMatchesRow.wrbit pos v
  | wrpair hi lo v => exact WordMatchesRow.wrpair hi lo v

section Operands

variable (op : BitVec 4) (dir : BitVec 2)

theorem indexOperand_wordOf {n : Nat} (h : indexFits n = true) (imm : BitVec 16) :
    indexOperand (wordOf op dir (indexBits n) imm) = n := by
  rw [indexOperand, idxField_wordOf, toNat_indexBits h]

theorem speedOperand_wordOf (idx : BitVec 8) {x : Int} (h : speedFits x = true) :
    speedOperand (wordOf op dir idx (speedBits x)) = x := by
  rw [speedOperand, immField_wordOf, toInt_speedBits h]

@[simp] theorem boolField_wordOf (idx : BitVec 8) (b : Bool) : boolField (wordOf op dir idx (boolBits b)) = b := by
  have h := immField_eq_bool (wordOf op dir idx (boolBits b))
  rw [immField_wordOf] at h
  obtain ⟨_, hb⟩ := (append_eq_append_iff _ _ _ _).1 h
  exact BitVec.ofBool_eq_iff_eq.1 hb.symm

theorem loOperand_wordOf (idx : BitVec 8) {lo : Nat} (h : indexFits lo = true) (v : BitVec 2) :
    loOperand (wordOf op dir idx (pairBits lo v)) = lo := by
  rw [loOperand, (pairBits_parts op dir idx lo v).1, toNat_indexBits h]

@[simp] theorem valField_wordOf (idx : BitVec 8) (lo : Nat) (v : BitVec 2) :
    valField (wordOf op dir idx (pairBits lo v)) = v :=
  (pairBits_parts op dir idx lo v).2.2

end Operands

/-- The fields of a well-formed instruction's word are its operands (30_encoding.md R49 to R52). -/
theorem fieldsOf_encode {i : Instr} (h : i.wellFormed = true) : fieldsOf (rowOfInstr i) (encode i) = .ok i := by
  cases i <;> simp only [Instr.wellFormed, Bool.and_eq_true] at h <;>
    simp [rowOfInstr, fieldsOf, encode, indexOperand_wordOf, speedOperand_wordOf, loOperand_wordOf, h]

/-- Settles O1: the word matches the instruction's row, and that row's fields are the operands. -/
theorem decodeInvertsEncode : Obligations.DecodeInvertsEncode :=
  fun i h => (decode_of_rowMatches (rowMatches_encode i)).trans (fieldsOf_encode h)

/-! ### Encoding what was decoded -/

section Fields

variable (w : Word)

@[simp] theorem indexFits_indexOperand : indexFits (indexOperand w) = true := by
  have h := (idxField w).isLt
  exact decide_eq_true (by unfold indexOperand; omega)

@[simp] theorem indexFits_loOperand : indexFits (loOperand w) = true := by
  have h := (loField w).isLt
  exact decide_eq_true (by unfold loOperand; omega)

@[simp] theorem speedFits_speedOperand : speedFits (speedOperand w) = true := by
  have h := BitVec.le_toInt (immField w)
  have h' := BitVec.toInt_lt (x := immField w)
  exact decide_eq_true (by unfold speedOperand; omega)

@[simp] theorem indexBits_indexOperand : indexBits (indexOperand w) = idxField w := by
  simp [indexBits, indexOperand]

@[simp] theorem indexBits_loOperand : indexBits (loOperand w) = loField w := by
  simp [indexBits, loOperand]

@[simp] theorem speedBits_speedOperand : speedBits (speedOperand w) = immField w :=
  BitVec.ofInt_toInt ..

end Fields

/-- A boolean operand's immediate, where the bits above `b` are zero (30_encoding.md R52). -/
theorem boolBits_boolField {w : Word} (h : w.extractLsb' 1 15 = 0#15) : boolBits (boolField w) = immField w := by
  rw [immField_eq_bool, h, boolBits]

/-- `WRPAIR`'s immediate, where the six bits between its parts are zero (30_encoding.md R47). -/
theorem pairBits_fields {w : Word} (h : w.extractLsb' 2 6 = 0#6) :
    pairBits (loOperand w) (valField w) = immField w := by
  rw [immField_eq_parts, h, pairBits, indexBits_loOperand]

/-- A word is built from its fields where `rsv` is zero (30_encoding.md R46). -/
theorem wordOf_eq {w : Word} {op : BitVec 4} {dir : BitVec 2} {idx : BitVec 8} {imm : BitVec 16} (hop : opField w = op)
    (hrsv : rsvField w = 0#2) (hdir : dir = dirField w) (hidx : idx = idxField w) (himm : imm = immField w) :
    wordOf op dir idx imm = w :=
  word_ext (by simp [hop]) (by simp [hrsv]) (by simp [hdir]) (by simp [hidx]) (by simp [himm])

/-- The fields of a word are operands a word can carry (30_encoding.md R50, R51). -/
theorem wellFormed_of_fieldsOf {w : Word} {r : Opcode} {i : Instr} (h : fieldsOf r w = .ok i) : i.wellFormed = true := by
  cases r <;> rw [fieldsOf] at h
  case setdir | setdirspd =>
    split at h <;> cases h
    simp [Instr.wellFormed]
  all_goals
    cases h
    simp [Instr.wellFormed]

/-- The fields of a word that matches a row are all of the word. -/
theorem encode_of_fieldsOf {w : Word} {r : Opcode} {i : Instr} (hop : opField w = rowOp r) (hrsv : rsvField w = 0#2)
    (hzeros : rowZeros w r) (h : fieldsOf r w = .ok i) : encode i = w := by
  cases r <;> rw [fieldsOf] at h <;> rw [rowZeros] at hzeros
  case setdir | setdirspd =>
    split at h <;> cases h
    next d hd => apply wordOf_eq hop hrsv (directionOf_eq_some hd) <;> simp [hzeros]
  all_goals
    cases h
    apply wordOf_eq hop hrsv <;> simp [hzeros, boolBits_boolField, pairBits_fields]

/-- Settles O2: what decodes is the fields of a matching row, and of such a word nothing else is left. -/
theorem encodeInvertsDecode : Obligations.EncodeInvertsDecode := by
  intro w i h
  obtain ⟨r, hr, hi⟩ := decode_eq_ok h
  obtain ⟨hop, hrsv, hzeros⟩ := (rowMatches_iff w r).1 hr
  exact ⟨wellFormed_of_fieldsOf hi, encode_of_fieldsOf hop hrsv hzeros hi⟩

/-! ### The reserved encodings -/

/-- An `op` is reserved or selects a row (30_encoding.md R48, R55). -/
theorem op_reserved_or_row (op : BitVec 4) : (op = 0x0#4 ∨ op = 0xE#4 ∨ op = 0xF#4) ∨ ∃ r ∈ opcodeRows, op = rowOp r := by
  revert op
  decide

/-- No row has a reserved `op`. -/
theorem rowOp_not_reserved (r : Opcode) : ¬ (rowOp r = 0x0#4 ∨ rowOp r = 0xE#4 ∨ rowOp r = 0xF#4) := by
  cases r <;> decide

/-- A direction field carries no Direction exactly if it is `0b11` (30_encoding.md R49). -/
theorem directionOf_eq_none_iff (c : BitVec 2) : directionOf c = none ↔ c = 0b11#2 := by
  revert c
  decide

/-- The fields of a row are reserved exactly for `dir = 0b11` in the two rows with a direction (30_encoding.md R49). -/
theorem fieldsOf_error_iff (r : Opcode) (w : Word) :
    (∃ e, fieldsOf r w = .error e) ↔ (r = .setdir ∨ r = .setdirspd) ∧ dirField w = 0b11#2 := by
  rw [← directionOf_eq_none_iff]
  cases r
  case setdir | setdirspd => cases h : directionOf (dirField w) <;> simp [fieldsOf, h]
  all_goals simp [fieldsOf]

/-- A word that matches no row decodes to no command (30_encoding.md R54). -/
theorem decode_error_of_no_row {w : Word} (h : ∀ r, rowMatches w r = false) : ∃ e, decode w = .error e := by
  cases hd : decode w with
  | error e => exact ⟨e, rfl⟩
  | ok i =>
    obtain ⟨r, hr, _⟩ := decode_eq_ok hd
    simp [h r] at hr

/-- A word whose `op` is reserved decodes to no command. -/
theorem decode_error_of_op {w : Word} (h : opField w = 0x0#4 ∨ opField w = 0xE#4 ∨ opField w = 0xF#4) :
    ∃ e, decode w = .error e := by
  refine decode_error_of_no_row fun r => Bool.eq_false_iff.2 fun hr => ?_
  obtain ⟨hop, _⟩ := (rowMatches_iff w r).1 hr
  exact rowOp_not_reserved r (hop ▸ h)

/-- A word whose `op` selects a row decodes to no command exactly if that row rejects it. -/
theorem decode_error_iff_of_op {w : Word} {r : Opcode} (hop : opField w = rowOp r) :
    (∃ e, decode w = .error e) ↔
      rsvField w ≠ 0#2 ∨ ¬ rowZeros w r ∨ (r = .setdir ∨ r = .setdirspd) ∧ dirField w = 0b11#2 := by
  by_cases hr : rowMatches w r = true
  · obtain ⟨_, hrsv, hzeros⟩ := (rowMatches_iff w r).1 hr
    rw [decode_of_rowMatches hr, fieldsOf_error_iff]
    simp [hrsv, hzeros]
  · have other : ∀ r', rowMatches w r' = false := fun r' => Bool.eq_false_iff.2 fun h' => by
      obtain ⟨hop', _⟩ := (rowMatches_iff w r').1 h'
      exact hr (rowOp_injective (hop.symm.trans hop') ▸ h')
    refine iff_of_true (decode_error_of_no_row other) ?_
    by_cases hrsv : rsvField w = 0#2
    · exact .inr (.inl fun hzeros => hr ((rowMatches_iff w r).2 ⟨hop, hrsv, hzeros⟩))
    · exact .inl hrsv

/-- Settles O4: `op` is reserved or selects a row, and then the row's format says what else is reserved. -/
theorem decodeRejectsExactlyReserved : Obligations.DecodeRejectsExactlyReserved := by
  intro w
  rcases op_reserved_or_row (opField w) with h | ⟨r, _, hop⟩
  · exact iff_of_true (decode_error_of_op h) (.inl h)
  · have hbits : w.extractLsb' 28 4 = rowOp r := hop
    refine (decode_error_iff_of_op hop).trans ?_
    cases r <;> simp [hbits, rowOp, rowZeros, rsvField, dirField, idxField, immField, imp_iff_not_or]

/-! ### The port -/

/-- A step with a command word as the host's next move accepts the word. -/
theorem step_of_command {s : State} {w : Word} {rest : List HostMove} (h : s.host = .command w :: rest) :
    step s = acceptWord w { s with host := rest } := by
  simp only [step, portStep, h, hostMove]

/-- A running block executes a word that decodes (30_encoding.md R54). -/
theorem acceptWord_of_ok {s : State} {w : Word} {i : Instr} (hs : s.fault = false) (hw : decode w = .ok i) :
    acceptWord w s = exec i s := by
  simp [acceptWord, hs, hw]

/-- A reserved word is a no-op, whether or not the block is halted (30_encoding.md R56). -/
theorem acceptWord_of_error {w : Word} {r : Reserved} (hw : decode w = .error r) (s : State) :
    acceptWord w s = .next s := by
  simp [acceptWord, hw]

/-- A table word reads as a command exactly if its bits, zero above `nbits`, decode to it. -/
theorem decodeTableWord_eq_some_iff (nbits w : Nat) (i : Instr) :
    decodeTableWord nbits w = some i ↔ decode (BitVec.ofNat 32 (w % 2 ^ nbits)) = .ok i := by
  unfold decodeTableWord
  cases decode (BitVec.ofNat 32 (w % 2 ^ nbits)) <;> simp

/-- Settles O6: the word is accepted, the block runs, and the word decodes; a fetched word is a word presented. -/
theorem stepRunsDecodedCommand : Obligations.StepRunsDecodedCommand := by
  refine ⟨fun s w rest i hhost hs hw => ?_, fun s nbits w i hs hw => ?_⟩
  · exact (step_of_command hhost).trans (acceptWord_of_ok hs hw)
  · have presented : step (s.withFetchWord nbits w) = acceptWord (BitVec.ofNat 32 (w % 2 ^ nbits)) s := step_of_command rfl
    rw [presented, acceptWord_of_ok hs ((decodeTableWord_eq_some_iff nbits w i).1 hw)]

/-- Settles O7: the word is accepted and is a no-op. -/
theorem reservedWordDoesNothing : Obligations.ReservedWordDoesNothing := by
  intro s w rest r hhost hw
  rw [step_of_command hhost, acceptWord_of_error hw]

end Sys2Proof.Proofs
end

section
/-! PROOFS. The Latch Register: the commit's events and their net effect (40_latch_register.md R64 to R68, R72), the two
commands that write the byte (R60 to R63, R73, R74) and the number of commits over a run (R65). -/

namespace Sys2Proof.Proofs

open Sys2Proof.Machine Sys2Proof.Safety

/-! ### The commit -/

/-- Settles O18: the bits of `b` are the only unknowns in the list, and the delay is a positive integer by its type. -/
theorem commitEventSequence : Obligations.CommitEventSequence :=
  ⟨fun _ => rfl, config.settleUs.pos⟩

/-- Settles O19: the shift-out fills the stage, the pulse moves it to the outputs. -/
theorem commitLatchesTheByte : Obligations.CommitLatchesTheByte :=
  fun b _ h => ⟨commit_eq_of_busIdle b h, length_commitEvents b, rfl, rfl⟩

/-- Only `LATCH` going high moves the outputs (40_latch_register.md R70). -/
theorem performAll_srOut_of_no_rise {es : List Event} (h : .dig .latch true ∉ es) (s : State) :
    (performAll es s).srOut = s.srOut := by
  induction es generalizing s with
  | nil => rfl
  | cons e es ih =>
    obtain ⟨hne, hmem⟩ := not_or.1 (mt List.mem_cons.2 h)
    obtain ⟨_, hout⟩ := registerMovesOnRisingEdges e s
    rw [performAll_cons, ih hmem, hout, if_neg fun hrise => hne hrise.1.symm]

/-- No event of the shift-out raises `LATCH` (40_latch_register.md R67). -/
theorem no_rise_shiftEvents (b : Byte) : .dig .latch true ∉ shiftEvents b := by
  simp [shiftEvents, shiftEventsFrom, bitEvents]

/-- The first 25 events of a commit are the shift-out and the first delay (40_latch_register.md R64). -/
theorem take_25_commitEvents (b : Byte) : (commitEvents b).take 25 = shiftEvents b ++ [settleDelay] := rfl

/-- The 26th event of a commit is the rise of `LATCH` (40_latch_register.md R64). -/
theorem take_26_commitEvents (b : Byte) :
    (commitEvents b).take 26 = shiftEvents b ++ [settleDelay, .dig .latch true] := rfl

/-- What follows the rise of `LATCH` in a commit (40_latch_register.md R64). -/
theorem drop_26_commitEvents (b : Byte) : (commitEvents b).drop 26 = [.dig .latch false, settleDelay] := rfl

/-- At the rise of `LATCH` the whole byte is in the stage, and the outputs take it. -/
theorem srOut_at_rise (b : Byte) {s : State} (h : BusIdle s) :
    (performAll ((commitEvents b).take 26) (setShadow b s)).srOut = b := by
  obtain ⟨hclock, hlatch⟩ := h
  rw [take_26_commitEvents, performAll_append, performAll_shiftEvents b (setShadow b s) hclock]
  simp [settleDelay, perform, applyEvent, hlatch]

/-- Settles O20: `LATCH` rises once, at the 26th event; before it the outputs are untouched, after it they stay. -/
theorem outputsChangeOnlyAtThePulse : Obligations.OutputsChangeOnlyAtThePulse := by
  intro b s k hs
  split
  · next hk =>
    have before : .dig .latch true ∉ (commitEvents b).take k := by
      intro hmem
      have hmem25 := List.take_subset_take_left (commitEvents b) hk hmem
      rw [take_25_commitEvents] at hmem25
      simp [no_rise_shiftEvents, settleDelay] at hmem25
    exact performAll_srOut_of_no_rise before _
  · next hk =>
    obtain ⟨j, rfl⟩ : ∃ j, k = 26 + j := Nat.exists_eq_add_of_le (by omega)
    have after : .dig .latch true ∉ ((commitEvents b).drop 26).take j := by
      intro hmem
      have hmem' := List.mem_of_mem_take hmem
      simp [drop_26_commitEvents, settleDelay] at hmem'
    rw [List.take_add, performAll_append, performAll_srOut_of_no_rise after, srOut_at_rise b hs]

/-! ### `WRBIT` and `WRPAIR` -/

@[simp] theorem exec_wrbit (pos : Nat) (v : Bool) (s : State) : exec (.wrbit pos v) s = .next (writeBit pos v s) := rfl

@[simp] theorem exec_wrpair (hi lo : Nat) (v : BitVec 2) (s : State) :
    exec (.wrpair hi lo v) s = .next (writeBitPair hi lo v s) := rfl

/-- On a bus at rest a compare-and-commit leaves what the statements call `latched` (40_latch_register.md R60, R64). -/
theorem commitIfChanged_eq_latched (c : Byte) {s : State} (h : BusIdle s) : commitIfChanged c s = latched c s := by
  rw [commitIfChanged, latched, commit_eq_of_busIdle c h]
  obtain ⟨hclock, hlatch⟩ := h
  rw [hclock, hlatch]

/-- `setbit` makes the byte the statements ask for (00_scope.md R11). -/
theorem bitReplaced_setbit (b : Byte) {pos : Nat} (v : Bool) (hpos : pos < 8) : BitReplaced pos v b (setbit b pos v) := by
  refine ⟨?_, fun p hp hne => ?_⟩
  · rw [getLsbD_setbit b v hpos hpos, if_pos rfl]
  · rw [getLsbD_setbit b v hpos hp, if_neg hne]

/-- Settles O22: the position is in range, so the byte with the bit replaced is compared and committed. -/
theorem wrbitReplacesOneBit : Obligations.WrbitReplacesOneBit := by
  intro pos v s hpos hs
  refine ⟨setbit s.shadow pos v, ?_, bitReplaced_setbit _ _ (by omega)⟩
  rw [exec_wrbit, writeBit, if_neg (by omega), commitIfChanged_eq_latched _ hs]

/-- Settles O23: the positions are in range and differ, so each write leaves the other's bit. -/
theorem wrpairReplacesTwoBits : Obligations.WrpairReplacesTwoBits := by
  intro hi lo v s hhi hlo hne hs
  obtain ⟨hiBit, hiRest⟩ := bitReplaced_setbit s.shadow (v.getLsbD 1) (show hi < 8 by omega)
  obtain ⟨loBit, loRest⟩ := bitReplaced_setbit (setbit s.shadow hi (v.getLsbD 1)) (v.getLsbD 0) (show lo < 8 by omega)
  refine ⟨setbit (setbit s.shadow hi (v.getLsbD 1)) lo (v.getLsbD 0), ?_, ?_, loBit, fun p hp hphi hplo => ?_⟩
  · rw [exec_wrpair, writeBitPair, if_neg (by omega), if_neg hne, commitIfChanged_eq_latched _ hs]
  · rw [loRest hi (by omega) hne, hiBit]
  · rw [loRest p hp hplo, hiRest p hp hphi]

/-- Settles O24: the range guard stands before the test for equal positions, and `raiseFault` writes `FAULT` and `CAUSE` alone. -/
theorem positionFaultsAreTaken : Obligations.PositionFaultsAreTaken := by
  refine ⟨fun pos v s hpos => ?_, fun hi lo v s hrange => ?_, fun p v s hp => ?_⟩
  · rw [exec_wrbit, writeBit, if_pos hpos]
    rfl
  · rw [exec_wrpair, writeBitPair, if_pos hrange]
    rfl
  · rw [exec_wrpair, writeBitPair, if_neg (by omega), if_pos rfl]
    rfl

/-! ### The channels under a latch command -/

/-- From `s` to `t` the channels and the host's moves are kept, and only bus events are emitted. -/
structure LeavesChannels (s t : State) : Prop where
  duty : t.duty = s.duty
  en : t.en = s.en
  host : t.host = s.host
  busEvents : ∃ es, t.trace = s.trace ++ es ∧ ∀ e ∈ es, e.isBus = true

theorem leavesChannels_refl (s : State) : LeavesChannels s s := ⟨rfl, rfl, rfl, [], by simp, by simp⟩

theorem leavesChannels_raiseFault (c : FaultCause) (s : State) : LeavesChannels s (raiseFault c s) :=
  ⟨rfl, rfl, rfl, [], by simp [raiseFault], by simp⟩

/-- A commit's events are bus events, which no channel listens to (10_state.md R27). -/
theorem leavesChannels_commit (b : Byte) (s : State) : LeavesChannels s (commit b s) := by
  have hbus : ∀ e ∈ commitEvents b, e.isBus = true := fun _ => isBus_of_mem_commitEvents
  obtain ⟨hduty, hen⟩ := performAll_bus_channels hbus (setShadow b s)
  exact ⟨hduty, hen, commit_host b s, commitEvents b, commit_trace b s, hbus⟩

theorem leavesChannels_commitIfChanged (b : Byte) (s : State) : LeavesChannels s (commitIfChanged b s) := by
  rcases commitIfChanged_cases b s with ⟨_, h⟩ | ⟨_, h⟩ <;> rw [h]
  · exact leavesChannels_refl s
  · exact leavesChannels_commit b s

theorem leavesChannels_writeBit (pos : Nat) (v : Bool) (s : State) : LeavesChannels s (writeBit pos v s) := by
  rcases writeBit_cases pos v s with ⟨_, h⟩ | ⟨_, h⟩ <;> rw [h]
  · exact leavesChannels_raiseFault _ s
  · exact leavesChannels_commitIfChanged _ s

theorem leavesChannels_writeBitPair (hi lo : Nat) (v : BitVec 2) (s : State) :
    LeavesChannels s (writeBitPair hi lo v s) := by
  rcases writeBitPair_cases hi lo v s with ⟨_, h⟩ | ⟨_, _, h⟩ | ⟨_, _, _, h⟩ <;> rw [h]
  · exact leavesChannels_raiseFault _ s
  · exact leavesChannels_raiseFault _ s
  · exact leavesChannels_commitIfChanged _ s

/-- Wanting the byte there is does nothing (40_latch_register.md R65). -/
theorem commitIfChanged_self (s : State) : commitIfChanged s.shadow s = s := if_pos rfl

@[simp] theorem commitIfChanged_fault (b : Byte) (s : State) : (commitIfChanged b s).fault = s.fault := by
  rcases commitIfChanged_cases b s with ⟨_, h⟩ | ⟨_, h⟩ <;> simp [h]

@[simp] theorem commitIfChanged_cause (b : Byte) (s : State) : (commitIfChanged b s).cause = s.cause := by
  rcases commitIfChanged_cases b s with ⟨_, h⟩ | ⟨_, h⟩ <;> simp [h]

/-- A direction never faults: it is a compare-and-commit, of `SHADOW` itself where the index is out of range. -/
theorem setDirection_eq_commitIfChanged (n : Nat) (d : Direction) (s : State) :
    ∃ b, setDirection n d s = commitIfChanged b s := by
  rcases setDirection_cases n d s with ⟨_, h⟩ | ⟨_, _, h⟩
  · exact ⟨s.shadow, h.trans (commitIfChanged_self s).symm⟩
  · exact ⟨_, h⟩

/-- A single output never faults: it is a compare-and-commit, of `SHADOW` itself where the index is out of range. -/
theorem setSinglePin_eq_commitIfChanged (n : Nat) (on : Bool) (s : State) :
    ∃ b, setSinglePin n on s = commitIfChanged b s := by
  rcases setSinglePin_cases n on s with ⟨_, h⟩ | ⟨_, _, h⟩
  · exact ⟨s.shadow, h.trans (commitIfChanged_self s).symm⟩
  · exact ⟨_, h⟩

theorem leavesChannels_setDirection (n : Nat) (d : Direction) (s : State) : LeavesChannels s (setDirection n d s) := by
  obtain ⟨b, h⟩ := setDirection_eq_commitIfChanged n d s
  rw [h]
  exact leavesChannels_commitIfChanged b s

theorem leavesChannels_setSinglePin (n : Nat) (on : Bool) (s : State) : LeavesChannels s (setSinglePin n on s) := by
  obtain ⟨b, h⟩ := setSinglePin_eq_commitIfChanged n on s
  rw [h]
  exact leavesChannels_commitIfChanged b s

/-- Settles O43: each of the four is one procedure of the Latch Register or of the Motor Controller, and the two of the
latter are compare-and-commits, which never fault. -/
theorem latchCommandsLeaveTheChannels : Obligations.LatchCommandsLeaveTheChannels := by
  intro i s t hcommand h
  have frame : LeavesChannels s t := by
    rcases hcommand with ⟨n, d, rfl⟩ | ⟨n, on, rfl⟩ | ⟨pos, v, rfl⟩ | ⟨hi, lo, v, rfl⟩ <;> cases h
    · exact leavesChannels_setDirection n d s
    · exact leavesChannels_setSinglePin n on s
    · exact leavesChannels_writeBit pos v s
    · exact leavesChannels_writeBitPair hi lo v s
  refine ⟨frame.duty, frame.en, frame.host, frame.busEvents, ?_⟩
  rintro (⟨n, d, rfl⟩ | ⟨n, on, rfl⟩) <;> cases h
  · obtain ⟨b, hb⟩ := setDirection_eq_commitIfChanged n d s
    simp [hb]
  · obtain ⟨b, hb⟩ := setSinglePin_eq_commitIfChanged n on s
    simp [hb]

/-! ### Commits over a run -/

@[simp] theorem latchPulses_append (es es' : List Event) : latchPulses (es ++ es') = latchPulses es + latchPulses es' :=
  List.countP_append

/-- A commit pulses `LATCH` once (40_latch_register.md R64). -/
@[simp] theorem latchPulses_commitEvents (b : Byte) : latchPulses (commitEvents b) = 1 := rfl

/-- PWM events pulse no bus line. -/
theorem latchPulses_of_pwm {es : List Event} (h : ∀ e ∈ es, e.isBus = false) : latchPulses es = 0 := by
  refine List.countP_eq_zero.2 fun e he hrise => ?_
  have hpwm := h e he
  rw [beq_iff_eq.1 hrise] at hpwm
  cases hpwm

/-- A command pulses `LATCH` once if it changes `SHADOW` and never otherwise (40_latch_register.md R65). -/
theorem latchPulses_effect {s t : State} (h : Effect s t) :
    latchPulses t.trace = latchPulses s.trace + (if t.shadow = s.shadow then 0 else 1) := by
  cases h with
  | fault c => simp [raiseFault]
  | quiet es hes => simp [latchPulses_of_pwm hes]
  | commits b hb es hes => simp [hb, latchPulses_of_pwm hes]

theorem latchPulses_step {s t : State} (hs : CommandsOnly s) (h : step s = .next t) :
    latchPulses t.trace = latchPulses s.trace + (if t.shadow = s.shadow then 0 else 1) := by
  obtain ⟨ws, hws⟩ := hs
  cases stepEffect_of_step h with
  | idle _ => simp
  | command w rest _ _ effect _ => exact latchPulses_effect (s := { s with host := rest }) effect
  | reset m rest hm hreset _ =>
    obtain ⟨w, _, hw⟩ := List.mem_map.1 (show m ∈ ws.map HostMove.command by simp [← hws, hm])
    rcases hreset with rfl | ⟨_, _, rfl⟩ <;> cases hw

theorem commandsOnly_step {s t : State} (hs : CommandsOnly s) (h : step s = .next t) : CommandsOnly t := by
  obtain ⟨ws, hws⟩ := hs
  obtain ⟨hhost, _⟩ := commandsTakeEffectInOrder s t h
  exact ⟨ws.tail, by rw [hhost, hws, List.map_tail]⟩

/-- A run takes its first step and goes on from there. -/
theorem core_run_succ {s t : State} (h : step s = .next t) (k : Nat) :
    Sys2Proof.core.run (k + 1) s = Sys2Proof.core.run k t := by
  simp only [Host.Core.run, core, h]

theorem changesAlong_succ {s t : State} (h : step s = .next t) (k : Nat) :
    changesAlong (k + 1) s = (if t.shadow = s.shadow then 0 else 1) + changesAlong k t := by
  simp only [changesAlong, h]

/-- Settles O47: by induction on the number of steps, each of which counts for itself. -/
theorem runCountsOneCommitPerChange : Obligations.RunCountsOneCommitPerChange := by
  refine ⟨fun k => ?_, rfl⟩
  induction k with
  | zero =>
    intro s t _ h
    cases h
    rfl
  | succ k ih =>
    intro s t hs h
    obtain ⟨u, hu⟩ := everyStepCompletes s
    rw [core_run_succ hu] at h
    rw [ih u t (commandsOnly_step hs hu) h, latchPulses_step hs hu, changesAlong_succ hu, Nat.add_assoc]

end Sys2Proof.Proofs
end

section
/-! PROOFS. The motor commands: what `SETDIR`, `SETDIRSPD`, `SETSPD`, `SETSSPD`, `BRAKE` and `RELEASE` leave
(41_motor_commands.md R76 to R85), the per-motor state machine (R86), the frame of the commands that write channels only,
and the motors a command does not name (42_pin_and_global_commands.md R93). -/

namespace Sys2Proof.Proofs

open Sys2Proof.Machine Sys2Proof.Safety

/-! ### Each command is its procedure -/

@[simp] theorem exec_setdir (n : Nat) (d : Direction) (s : State) : exec (.setdir n d) s = .next (setDirection n d s) := rfl

@[simp] theorem exec_setdirspd (n : Nat) (d : Direction) (x : Int) (s : State) :
    exec (.setdirspd n d x) s = .next (setDirectionAndSpeed n d x s) := rfl

@[simp] theorem exec_setspd (n : Nat) (x : Int) (s : State) : exec (.setspd n x) s = .next (setSpeed n x s) := rfl

@[simp] theorem exec_setsspd (n : Nat) (x : Int) (s : State) : exec (.setsspd n x) s = .next (setSignedSpeed n x s) := rfl

@[simp] theorem exec_brake (n : Nat) (s : State) : exec (.brake n) s = .next (setDirectionAndSpeed n .stop 255 s) := rfl

@[simp] theorem exec_release (n : Nat) (s : State) : exec (.release n) s = .next (releaseMotor n s) := rfl

/-- `setSignedSpeed` in one line: the direction of the sign, the magnitude as speed (41_motor_commands.md R79). -/
theorem setSignedSpeed_eq (n : Nat) (x : Int) (s : State) :
    setSignedSpeed n x s = setDirectionAndSpeed n (if x < 0 then .rewind else .forward) x.natAbs s := by
  rcases setSignedSpeed_cases n x s with ⟨hx, h⟩ | ⟨hx, h⟩
  · rw [h, if_pos hx, Int.ofNat_natAbs_of_nonpos (by omega)]
  · rw [h, if_neg (by omega), Int.natAbs_of_nonneg hx]

/-! ### An index above 3 (41_motor_commands.md R75) -/

section OutOfRange

variable {n : Nat} (hn : 3 < n) (s : State)
include hn

theorem setDirection_of_gt (d : Direction) : setDirection n d s = s := by
  rw [setDirection, motorIndex_eq_none hn]

theorem setSpeed_of_gt (x : Int) : setSpeed n x s = s := by
  rw [setSpeed, motorIndex_eq_none hn]

theorem setDirectionAndSpeed_of_gt (d : Direction) (x : Int) : setDirectionAndSpeed n d x s = s := by
  rw [setDirectionAndSpeed, setDirection_of_gt hn, setSpeed_of_gt hn]

theorem setSignedSpeed_of_gt (x : Int) : setSignedSpeed n x s = s := by
  rw [setSignedSpeed_eq, setDirectionAndSpeed_of_gt hn]

theorem releaseMotor_of_gt : releaseMotor n s = s := by
  rw [releaseMotor, motorIndex_eq_none hn]

end OutOfRange

/-! ### A motor in range -/

/-- The motor's positions in the statements are those of the wiring table (41_motor_commands.md R76, 10_state.md R21). -/
theorem pairPositions_eq (m : Fin 4) : pairPositions m = (highPosition m, lowPosition m) := by
  revert m; decide

/-- A direction is a `writeBitPair` at the motor's two positions, which differ and are in range (41_motor_commands.md R76). -/
theorem setDirection_eq_latched (m : Fin 4) (d : Direction) {s : State} (hs : BusIdle s) :
    ∃ c, setDirection m d s = latched c s ∧ PairReplaced m d s.shadow c := by
  obtain ⟨hhi, hlo, hne⟩ := pair_positions m
  obtain ⟨c, hc, bits⟩ := wrpairReplacesTwoBits _ _ (dirCode d) s hhi hlo hne hs
  refine ⟨c, ?_, by simpa only [PairReplaced, pairPositions_eq] using bits⟩
  rw [setDirection, motorIndex_val]
  exact Host.Outcome.next.inj hc

/-- The event of a speed writes duty and enable (10_state.md R27, 41_motor_commands.md R77). -/
theorem perform_pwmAna (m : Fin 4) (d : Byte) (s : State) : perform (.pwmAna m d) s = analogWritten m d s := rfl

theorem setSpeed_eq_speedWritten (m : Fin 4) (x : Int) (s : State) : setSpeed m x s = speedWritten m x s := by
  rcases setSpeed_cases m x s with ⟨hx, h⟩ | ⟨k, hk, h0, h1, h⟩ <;> rw [h, speedWritten]
  · rw [if_pos (by omega)]
  · obtain rfl := Fin.ext hk
    rw [if_neg (by omega), perform_pwmAna]

/-- The direction, latched, then the speed (41_motor_commands.md R78). -/
theorem setDirectionAndSpeed_eq_speedWritten (m : Fin 4) (d : Direction) (x : Int) {s : State} (hs : BusIdle s) :
    ∃ c, setDirectionAndSpeed m d x s = speedWritten m x (latched c s) ∧ PairReplaced m d s.shadow c := by
  obtain ⟨c, hc, pair⟩ := setDirection_eq_latched m d hs
  exact ⟨c, by rw [setDirectionAndSpeed, hc, setSpeed_eq_speedWritten], pair⟩

theorem releaseMotor_val (m : Fin 4) (s : State) :
    releaseMotor m s = { s with en := s.en.set m false, trace := s.trace ++ [.pwmGate m false] } := by
  rw [releaseMotor, motorIndex_val]
  rfl

/-! ### The next state of each command -/

/-- Settles O25: the motor's positions are two that `writeBitPair` accepts; an index above 3 names no motor. -/
theorem setdirWritesThePair : Obligations.SetdirWritesThePair := by
  refine ⟨fun m d s hs => ?_, fun n d s hn => ?_⟩
  · obtain ⟨c, hc, pair⟩ := setDirection_eq_latched m d hs
    exact ⟨c, by rw [exec_setdir, hc], pair⟩
  · rw [exec_setdir, setDirection_of_gt hn]

/-- Settles O26: the two guards are those of `setSpeed`. -/
theorem setspdWritesTheChannel : Obligations.SetspdWritesTheChannel := by
  refine ⟨fun m x s => ?_, fun n x s hn => ?_⟩
  · rw [exec_setspd, setSpeed_eq_speedWritten]
  · rw [exec_setspd, setSpeed_of_gt hn]

/-- Settles O27: the speed is written in the state the direction leaves. -/
theorem setdirspdWritesDirectionThenSpeed : Obligations.SetdirspdWritesDirectionThenSpeed := by
  refine ⟨fun m d x s hs => ?_, fun n d x s hn => ?_⟩
  · obtain ⟨c, hc, pair⟩ := setDirectionAndSpeed_eq_speedWritten m d x hs
    exact ⟨c, by rw [exec_setdirspd, hc], pair⟩
  · rw [exec_setdirspd, setDirectionAndSpeed_of_gt hn]

/-- Settles O28: the magnitude is a natural number, so nothing wraps. -/
theorem setsspdFollowsTheSign : Obligations.SetsspdFollowsTheSign := by
  refine ⟨fun m x s hs => ?_, fun n x s hn => ?_⟩
  · obtain ⟨c, hc, pair⟩ :=
      setDirectionAndSpeed_eq_speedWritten m (if x < 0 then .rewind else .forward) x.natAbs hs
    exact ⟨c, by rw [exec_setsspd, setSignedSpeed_eq, hc], pair⟩
  · rw [exec_setsspd, setSignedSpeed_of_gt hn]

/-- Settles O29: the two branches of `setSignedSpeed`. -/
theorem signedSpeedIsDirectionAndSpeed : Obligations.SignedSpeedIsDirectionAndSpeed := by
  refine fun n x s => ⟨fun hx => ?_, fun hx => ?_⟩
  · rw [exec_setsspd, exec_setdirspd, setSignedSpeed, if_pos hx]
  · rw [exec_setsspd, exec_setdirspd, setSignedSpeed, if_neg (by omega)]

/-- Settles O30: Stop at the speed 255, which is in range. -/
theorem brakeStopsAtFullDuty : Obligations.BrakeStopsAtFullDuty := by
  refine ⟨fun m s hs => ?_, fun n s hn => ?_⟩
  · obtain ⟨c, hc, pair⟩ := setDirectionAndSpeed_eq_speedWritten m .stop 255 hs
    refine ⟨c, ?_, pair⟩
    rw [exec_brake, hc, speedWritten, if_neg (by decide)]
    rfl
  · rw [exec_brake, setDirectionAndSpeed_of_gt hn]

/-- Settles O31: one gate event, or no motor. -/
theorem releaseClearsTheEnable : Obligations.ReleaseClearsTheEnable := by
  refine ⟨fun m s => ?_, fun n s hn => ?_⟩
  · rw [exec_release, releaseMotor_val]
  · rw [exec_release, releaseMotor_of_gt hn]

/-! ### Released, then enabled or driven again -/

theorem dirbits_of_shadow_eq {s t : State} (h : t.shadow = s.shadow) (m : Fin 4) : dirbits t m = dirbits s m := by
  rw [dirbits, dirbits, h]

theorem releaseMotor_duty (m : Fin 4) (s : State) : (releaseMotor m s).duty = s.duty := by
  rw [releaseMotor_val]

@[simp] theorem enableAll_duty (on : Bool) (s : State) : (enableAll on s).duty = s.duty := by
  simp [enableAll, gateEvents, channels, perform, applyEvent]

theorem enableAll_en (on : Bool) (s : State) (n : Fin 4) : (enableAll on s).en[n] = on := by
  simp only [enableAll, gateEvents, channels, List.map_cons, List.map_nil, performAll_cons, performAll_nil, perform_en,
    enableWrite]
  fin_cases n <;> rfl

/-- Every channel presents its stored duty after `enableAll(1)` and 0 after `enableAll(0)` (42_pin_and_global_commands.md
R88; the spec's decision D13). -/
theorem pwmOut_enableAll (on : Bool) (s : State) (n : Fin 4) :
    pwmOut (enableAll on s) n = if on then s.duty[n] else 0#8 := by
  rw [pwmOut, enableAll_en, enableAll_duty]

/-- Settles O37: a release writes the enable alone, so the stored duty and the pair are there for the next command. -/
theorem releaseThenResume : Obligations.ReleaseThenResume := by
  intro m s t h
  cases h
  have hdir : dirbits (releaseMotor m s) m = dirbits s m := dirbits_of_shadow_eq (releaseMotor_shadow m s) m
  refine ⟨pwmOut_releaseMotor m s, hdir, fun u hu => ?_, fun x u h0 h1 hu => ?_⟩
  · cases hu
    exact ⟨by rw [pwmOut_enableAll, if_pos rfl, releaseMotor_duty],
      (dirbits_of_shadow_eq (enableAll_shadow true _) m).trans hdir⟩
  · cases hu
    exact ⟨pwmOut_setSpeed h0 h1 m _, (dirbits_setSpeed m x _ m).trans hdir⟩

/-! ### The per-motor state machine (41_motor_commands.md R86) -/

theorem motorView_setDirection (m : Fin 4) (d : Direction) (s : State) :
    motorView (setDirection m d s) m = { motorView s m with direction := some d } := by
  obtain ⟨hduty, hen, _, _⟩ := leavesChannels_setDirection m d s
  rw [motorView, dirbits_setDirection, if_pos rfl, Laws.directionOf_dirCode, hduty, hen]
  rfl

theorem motorView_setSpeed (m : Fin 4) (x : Int) (s : State) :
    motorView (setSpeed m x s) m =
      if x < 0 ∨ x > 255 then motorView s m else { motorView s m with speed := BitVec.ofInt 8 x, enabled := true } := by
  rw [setSpeed_eq_speedWritten, speedWritten]
  split
  · rfl
  · obtain ⟨k, rfl⟩ := Int.eq_ofNat_of_zero_le (show 0 ≤ x by omega)
    simp [motorView, analogWritten, dirbits]

theorem motorView_setDirectionAndSpeed (m : Fin 4) (d : Direction) (x : Int) (s : State) :
    motorView (setDirectionAndSpeed m d x s) m =
      if x < 0 ∨ x > 255 then { motorView s m with direction := some d }
      else { direction := some d, speed := BitVec.ofInt 8 x, enabled := true } := by
  rw [setDirectionAndSpeed, motorView_setSpeed, motorView_setDirection]

theorem motorView_releaseMotor (m : Fin 4) (s : State) :
    motorView (releaseMotor m s) m = { motorView s m with enabled := false } := by
  simp [releaseMotor_val, motorView, dirbits]

/-- Settles O39: each command's row is that of its procedure; a signed speed is its magnitude, a brake is Stop at 255. -/
theorem motorStateMachine : Obligations.MotorStateMachine := by
  intro m d x s t
  refine ⟨fun h => ?_, fun h => ?_, fun h => ?_, fun h => ?_, fun h => ?_, fun h => ?_⟩ <;> cases h
  · exact motorView_setDirection m d s
  · exact motorView_setSpeed m x s
  · exact motorView_setDirectionAndSpeed m d x s
  · have hrange : ((x.natAbs : Int) < 0 ∨ (x.natAbs : Int) > 255) ↔ x.natAbs > 255 := by omega
    rw [setSignedSpeed_eq, motorView_setDirectionAndSpeed, if_congr hrange rfl rfl, BitVec.ofInt_natCast]
  · exact motorView_setDirectionAndSpeed m .stop 255 s
  · exact motorView_releaseMotor m s

/-! ### The latch under a channel command -/

/-- From `s` to `t` PWM events have happened and nothing else. -/
def OnlyPwm (s t : State) : Prop := ∃ es, (∀ e ∈ es, e.isBus = false) ∧ t = performAll es s

theorem onlyPwm_refl (s : State) : OnlyPwm s s := ⟨[], by simp, rfl⟩

theorem onlyPwm_perform {e : Event} (h : e.isBus = false) (s : State) : OnlyPwm s (perform e s) :=
  ⟨[e], by simpa using h, rfl⟩

theorem onlyPwm_setSpeed (n : Nat) (x : Int) (s : State) : OnlyPwm s (setSpeed n x s) := by
  rcases setSpeed_cases n x s with ⟨_, h⟩ | ⟨m, _, _, _, h⟩ <;> rw [h]
  · exact onlyPwm_refl s
  · exact onlyPwm_perform rfl s

theorem onlyPwm_releaseMotor (n : Nat) (s : State) : OnlyPwm s (releaseMotor n s) := by
  rcases releaseMotor_cases n s with ⟨_, h⟩ | ⟨m, _, h⟩ <;> rw [h]
  · exact onlyPwm_refl s
  · exact onlyPwm_perform rfl s

theorem onlyPwm_enableAll (on : Bool) (s : State) : OnlyPwm s (enableAll on s) :=
  ⟨gateEvents on, by simp [gateEvents, Event.isBus], rfl⟩

theorem onlyPwm_setAllSpeed (x : Int) (s : State) : OnlyPwm s (setAllSpeed x s) := by
  rcases setAllSpeed_cases x s with ⟨_, h⟩ | ⟨_, _, h⟩ <;> rw [h]
  · exact onlyPwm_refl s
  · exact ⟨_, by simp [Event.isBus], rfl⟩

/-- PWM events drive no bus line (10_state.md R27). -/
theorem performAll_pwm_lines {es : List Event} (h : ∀ e ∈ es, e.isBus = false) (s : State) :
    (performAll es s).data = s.data ∧ (performAll es s).clock = s.clock ∧ (performAll es s).latch = s.latch := by
  induction es generalizing s with
  | nil => exact ⟨rfl, rfl, rfl⟩
  | cons e es ih =>
    obtain ⟨hdata, hclock, hlatch, _, _⟩ := perform_pwm_bus (h e (by simp)) s
    obtain ⟨hdata', hclock', hlatch'⟩ := ih (fun e' he' => h e' (by simp [he'])) (perform e s)
    exact ⟨hdata'.trans hdata, hclock'.trans hclock, hlatch'.trans hlatch⟩

/-- Settles O42: each of the six commands performs PWM events alone. -/
theorem channelCommandsLeaveTheLatch : Obligations.ChannelCommandsLeaveTheLatch := by
  intro i s t hcommand h
  have hpwm : OnlyPwm s t := by
    rcases hcommand with ⟨n, x, rfl⟩ | ⟨n, rfl⟩ | ⟨on, rfl⟩ | rfl | rfl | ⟨x, rfl⟩ <;> cases h
    · exact onlyPwm_setSpeed n x s
    · exact onlyPwm_releaseMotor n s
    · exact onlyPwm_enableAll on s
    · exact onlyPwm_enableAll true s
    · exact onlyPwm_enableAll false s
    · exact onlyPwm_setAllSpeed x s
  obtain ⟨es, hes, rfl⟩ := hpwm
  obtain ⟨hdata, hclock, hlatch⟩ := performAll_pwm_lines hes s
  obtain ⟨hstage, hout⟩ := performAll_pwm_register hes s
  exact ⟨performAll_shadow es s, hdata, hclock, hlatch, hstage, hout, performAll_fault es s, performAll_cause es s,
    performAll_host es s, es, performAll_trace es s, hes⟩

/-! ### The other motors (41_motor_commands.md R80, 42_pin_and_global_commands.md R93) -/

/-- Writing one channel leaves another (10_state.md R19, R20). -/
theorem getElem_set_other {α : Type} (v : Vector α 4) {m k : Fin 4} (h : m.val ≠ k.val) (x : α) :
    (v.set k x)[m] = v[m] :=
  Vector.getElem_set_ne k.isLt m.isLt h.symm

/-- From `s` to `t` motor `m` is kept, and so are the fault, its cause and the host's moves. -/
structure KeepsMotor (m : Fin 4) (s t : State) : Prop where
  pair : dirbits t m = dirbits s m
  duty : t.duty[m] = s.duty[m]
  en : t.en[m] = s.en[m]
  fault : t.fault = s.fault
  cause : t.cause = s.cause
  host : t.host = s.host

theorem KeepsMotor.trans {m : Fin 4} {s t u : State} (h : KeepsMotor m s t) (h' : KeepsMotor m t u) : KeepsMotor m s u :=
  ⟨h'.pair.trans h.pair, h'.duty.trans h.duty, h'.en.trans h.en, h'.fault.trans h.fault, h'.cause.trans h.cause,
    h'.host.trans h.host⟩

theorem keepsMotor_refl (m : Fin 4) (s : State) : KeepsMotor m s s := ⟨rfl, rfl, rfl, rfl, rfl, rfl⟩

section OtherMotor

variable {n : Nat} {m : Fin 4} (hmn : m.val ≠ n) (s : State)
include hmn

theorem keepsMotor_setDirection (d : Direction) : KeepsMotor m s (setDirection n d s) := by
  obtain ⟨hduty, hen, hhost, _⟩ := leavesChannels_setDirection n d s
  obtain ⟨b, hb⟩ := setDirection_eq_commitIfChanged n d s
  exact {
    pair := by rw [dirbits_setDirection, if_neg hmn]
    duty := by rw [hduty]
    en := by rw [hen]
    fault := by rw [hb, commitIfChanged_fault]
    cause := by rw [hb, commitIfChanged_cause]
    host := hhost }

theorem keepsMotor_setSpeed (x : Int) : KeepsMotor m s (setSpeed n x s) := by
  rcases setSpeed_cases n x s with ⟨_, h⟩ | ⟨k, rfl, _, _, h⟩ <;> rw [h]
  · exact keepsMotor_refl m s
  · rw [perform_pwmAna]
    exact ⟨rfl, getElem_set_other _ hmn _, getElem_set_other _ hmn _, rfl, rfl, rfl⟩

theorem keepsMotor_releaseMotor : KeepsMotor m s (releaseMotor n s) := by
  rcases releaseMotor_cases n s with ⟨_, h⟩ | ⟨k, rfl, _⟩
  · rw [h]
    exact keepsMotor_refl m s
  · rw [releaseMotor_val]
    exact ⟨rfl, rfl, getElem_set_other _ hmn _, rfl, rfl, rfl⟩

theorem keepsMotor_setDirectionAndSpeed (d : Direction) (x : Int) : KeepsMotor m s (setDirectionAndSpeed n d x s) :=
  (keepsMotor_setDirection hmn s d).trans (keepsMotor_setSpeed hmn _ x)

end OtherMotor

/-- Settles O44: a direction's pair and a speed's or a release's channel are those of motor `n`. -/
theorem otherMotorsUnaffected : Obligations.OtherMotorsUnaffected := by
  intro n d x i s t m hmn hcommand h
  have kept : KeepsMotor m s t := by
    rcases hcommand with rfl | rfl | rfl | rfl | rfl | rfl <;> cases h
    · exact keepsMotor_setDirection hmn s d
    · exact keepsMotor_setDirectionAndSpeed hmn s d x
    · exact keepsMotor_setSpeed hmn s x
    · rw [setSignedSpeed_eq]
      exact keepsMotor_setDirectionAndSpeed hmn s _ _
    · exact keepsMotor_setDirectionAndSpeed hmn s .stop 255
    · exact keepsMotor_releaseMotor hmn s
  exact ⟨kept.pair, kept.duty, kept.en, kept.fault, kept.cause, kept.host⟩

end Sys2Proof.Proofs
end

section
/-! PROOFS. The single-pin and global commands: what `SETPIN`, `ENALL`, `ENPINS`, `DISPINS` and `SETALLSPD` leave
(42_pin_and_global_commands.md R87 to R92). -/

namespace Sys2Proof.Proofs

open Sys2Proof.Machine Sys2Proof.Safety

/-! ### Each command is its procedure -/

@[simp] theorem exec_setpin (n : Nat) (on : Bool) (s : State) : exec (.setpin n on) s = .next (setSinglePin n on s) := rfl

@[simp] theorem exec_setallspd (x : Int) (s : State) : exec (.setallspd x) s = .next (setAllSpeed x s) := rfl

/-! ### One output (42_pin_and_global_commands.md R87) -/

/-- The output's position in the statements is that of the wiring table (10_state.md R21). -/
theorem outputPosition_eq (i : Fin 8) : outputPosition i = latchBitOf i := by
  revert i; decide

theorem setSinglePin_of_gt {n : Nat} (hn : 7 < n) (on : Bool) (s : State) : setSinglePin n on s = s := by
  rw [setSinglePin, outputIndex_eq_none hn]

/-- A single output is a `writeBit` at the wired position, which is in range. -/
theorem setSinglePin_eq_latched (i : Fin 8) (on : Bool) {s : State} (hs : BusIdle s) :
    ∃ c, setSinglePin i on s = latched c s ∧ BitReplaced (outputPosition i) on s.shadow c := by
  obtain ⟨c, hc, bits⟩ := wrbitReplacesOneBit _ on s (latchBitOf_le i) hs
  refine ⟨c, ?_, by rwa [outputPosition_eq]⟩
  rw [setSinglePin, outputIndex_val]
  exact Host.Outcome.next.inj hc

/-- Settles O32: the wired position is one `writeBit` accepts; an index above 7 names no output. -/
theorem setpinWritesTheWiredBit : Obligations.SetpinWritesTheWiredBit := by
  refine ⟨fun i on s hs => ?_, fun n on s hn => ?_⟩
  · obtain ⟨c, hc, bits⟩ := setSinglePin_eq_latched i on hs
    exact ⟨c, by rw [exec_setpin, hc], bits⟩
  · rw [exec_setpin, setSinglePin_of_gt hn]

/-! ### All four channels (42_pin_and_global_commands.md R88, R92) -/

/-- Writing each of the four channels leaves nothing of what was there. -/
theorem set_every_channel {α : Type} (v : Vector α 4) (x : α) :
    (((v.set (0 : Fin 4) x).set (1 : Fin 4) x).set (2 : Fin 4) x).set (3 : Fin 4) x = Vector.replicate 4 x := by
  ext i hi
  interval_cases i <;> simp

/-- The event of a gate writes the enable alone (10_state.md R27). -/
theorem perform_pwmGate (m : Fin 4) (on : Bool) (s : State) :
    perform (.pwmGate m on) s = { s with en := s.en.set m on, trace := s.trace ++ [.pwmGate m on] } := rfl

/-- Events on the four channels in order are four events one after the other. -/
theorem performAll_channels (event : Fin 4 → Event) (s : State) :
    performAll (channels.map event) s =
      perform (event 3) (perform (event 2) (perform (event 1) (perform (event 0) s))) := rfl

/-- `enableAll` leaves every enable at its operand, the four gate events in the trace, and the rest as it was. -/
theorem enableAll_eq (on : Bool) (s : State) :
    enableAll on s = { s with en := Vector.replicate 4 on, trace := s.trace ++ gateEvents on } := by
  rw [enableAll, gateEvents, performAll_channels]
  simp only [perform_pwmGate, set_every_channel, List.append_assoc]
  rfl

/-- Four `PwmAna` events leave every duty at theirs and every enable at 1 (10_state.md R27). -/
theorem performAll_pwmAna_channels (d : Byte) (s : State) :
    performAll (channels.map fun n => .pwmAna n d) s =
      { s with
        duty := Vector.replicate 4 d
        en := Vector.replicate 4 true
        trace := s.trace ++ channels.map fun n => .pwmAna n d } := by
  rw [performAll_channels]
  simp only [perform_pwmAna, analogWritten, set_every_channel, List.append_assoc]
  rfl

/-- Settles O33: each of the three commands is `enableAll` at its level. -/
theorem enableCommandsGateEveryChannel : Obligations.EnableCommandsGateEveryChannel := fun s =>
  ⟨fun on => congrArg Host.Outcome.next (enableAll_eq on s), congrArg Host.Outcome.next (enableAll_eq true s),
    congrArg Host.Outcome.next (enableAll_eq false s)⟩

/-- Settles O34: the four calls share one speed, so all of them write or none does. -/
theorem setallspdWritesEveryChannel : Obligations.SetallspdWritesEveryChannel := by
  intro x s
  rcases setAllSpeed_cases x s with ⟨hx, h⟩ | ⟨h0, h1, h⟩ <;> rw [exec_setallspd, h]
  · rw [if_pos hx]
  · rw [if_neg (by omega), performAll_pwmAna_channels]
    rfl

/-- Settles O36: the enables alone are written, so an enabled channel presents the duty stored for it. -/
theorem enableReappliesStoredDuty : Obligations.EnableReappliesStoredDuty := by
  intro on s t h
  cases h
  exact ⟨enableAll_duty on s, enableAll_shadow on s, by rw [enableAll_eq], pwmOut_enableAll on s⟩

end Sys2Proof.Proofs
end

section
/-! PROOFS. The exceptional cases of 60_exceptions.md: operands out of range (R94), the commands that fault and when (R95,
R96), what a halted block does with the words it accepts (R98), the idle block (R108). -/

namespace Sys2Proof.Proofs

open Sys2Proof.Machine

/-! ### A halted block (60_exceptions.md R98) -/

/-- A halted block's step takes a command word off the host's moves and does nothing else. -/
theorem step_of_command_of_fault {s : State} {w : Word} {rest : List HostMove} (hs : s.fault = true)
    (h : s.host = .command w :: rest) : step s = .next { s with host := rest } :=
  (step_of_command h).trans (acceptWord_of_fault w hs)

/-- Settles O8: by induction on the words, each discarded by a step that leaves the block halted. -/
theorem haltedBlockDiscardsWords : Obligations.HaltedBlockDiscardsWords := by
  intro ws
  induction ws with
  | nil =>
    intro s rest _ hhost
    cases hhost
    rfl
  | cons w ws ih =>
    intro s rest hs hhost
    rw [List.length_cons, core_run_succ (step_of_command_of_fault hs hhost)]
    exact ih _ rest hs rfl

/-! ### A speed outside 0..255 (60_exceptions.md R94, 41_motor_commands.md R77) -/

section SpeedOutOfRange

variable {x : Int} (hx : x < 0 ∨ 255 < x) (n : Nat) (s : State)
include hx

theorem setSpeed_of_outOfRange : setSpeed n x s = s := by
  rcases setSpeed_cases n x s with ⟨_, h⟩ | ⟨_, _, h0, h1, _⟩
  · exact h
  · omega

theorem setDirectionAndSpeed_of_outOfRange (d : Direction) : setDirectionAndSpeed n d x s = setDirection n d s := by
  rw [setDirectionAndSpeed, setSpeed_of_outOfRange hx]

theorem setAllSpeed_of_outOfRange : setAllSpeed x s = s := by
  rcases setAllSpeed_cases x s with ⟨_, h⟩ | ⟨h0, h1, _⟩
  · exact h
  · omega

end SpeedOutOfRange

/-- Settles O35: an index out of range names no motor or output, a speed out of range is no duty (a signed one by its
magnitude, which does not wrap), and a reserved word is a no-op at the port. -/
theorem outOfRangeOperandsAreSilent : Obligations.OutOfRangeOperandsAreSilent := by
  refine ⟨fun n d x s hn => ?_, fun n on s hn => ?_, fun n d x s hx => ?_, fun n x s hx => ?_,
    fun w r s hw => acceptWord_of_error hw s⟩
  · rw [exec_setdir, exec_setdirspd, exec_setspd, exec_setsspd, exec_brake, exec_release, setDirection_of_gt hn,
      setDirectionAndSpeed_of_gt hn, setDirectionAndSpeed_of_gt hn, setSpeed_of_gt hn, setSignedSpeed_of_gt hn,
      releaseMotor_of_gt hn]
    exact ⟨rfl, rfl, rfl, rfl, rfl, rfl⟩
  · rw [exec_setpin, setSinglePin_of_gt hn]
  · rw [exec_setspd, exec_setallspd, exec_setdirspd, exec_setdir, setSpeed_of_outOfRange hx, setAllSpeed_of_outOfRange hx,
      setDirectionAndSpeed_of_outOfRange hx]
    exact ⟨rfl, rfl, rfl⟩
  · rw [exec_setsspd, exec_setdir, setSignedSpeed_eq, setDirectionAndSpeed_of_outOfRange (.inr (by omega))]

/-! ### Which commands fault (60_exceptions.md R95, R96, R101) -/

/-- From `s` to `t` no fault is taken and none is cleared. -/
structure KeepsFault (s t : State) : Prop where
  fault : t.fault = s.fault
  cause : t.cause = s.cause

theorem KeepsFault.trans {s t u : State} (h : KeepsFault s t) (h' : KeepsFault t u) : KeepsFault s u :=
  ⟨h'.fault.trans h.fault, h'.cause.trans h.cause⟩

theorem keepsFault_commitIfChanged (b : Byte) (s : State) : KeepsFault s (commitIfChanged b s) :=
  ⟨commitIfChanged_fault b s, commitIfChanged_cause b s⟩

/-- PWM events take no fault (10_state.md R27). -/
theorem OnlyPwm.keepsFault {s t : State} (h : OnlyPwm s t) : KeepsFault s t := by
  obtain ⟨es, _, rfl⟩ := h
  exact ⟨performAll_fault es s, performAll_cause es s⟩

theorem keepsFault_setDirection (n : Nat) (d : Direction) (s : State) : KeepsFault s (setDirection n d s) := by
  obtain ⟨b, h⟩ := setDirection_eq_commitIfChanged n d s
  rw [h]
  exact keepsFault_commitIfChanged b s

theorem keepsFault_setSinglePin (n : Nat) (on : Bool) (s : State) : KeepsFault s (setSinglePin n on s) := by
  obtain ⟨b, h⟩ := setSinglePin_eq_commitIfChanged n on s
  rw [h]
  exact keepsFault_commitIfChanged b s

theorem keepsFault_setDirectionAndSpeed (n : Nat) (d : Direction) (x : Int) (s : State) :
    KeepsFault s (setDirectionAndSpeed n d x s) :=
  (keepsFault_setDirection n d s).trans (onlyPwm_setSpeed n x _).keepsFault

/-- Every command but `WRBIT` and `WRPAIR` keeps `FAULT` and `CAUSE`: it is made of compare-and-commits and PWM events
(60_exceptions.md R95, R96). -/
theorem keepsFault_or_latchWrite {i : Instr} {s t : State} (h : exec i s = .next t) :
    KeepsFault s t ∨ (∃ pos v, i = .wrbit pos v) ∨ (∃ hi lo v, i = .wrpair hi lo v) := by
  cases i with
  | setdir n d => cases h; exact .inl (keepsFault_setDirection n d s)
  | setdirspd n d x => cases h; exact .inl (keepsFault_setDirectionAndSpeed n d x s)
  | setspd n x => cases h; exact .inl (onlyPwm_setSpeed n x s).keepsFault
  | setsspd n x =>
    cases h
    rw [setSignedSpeed_eq]
    exact .inl (keepsFault_setDirectionAndSpeed n _ _ s)
  | brake n => cases h; exact .inl (keepsFault_setDirectionAndSpeed n .stop 255 s)
  | release n => cases h; exact .inl (onlyPwm_releaseMotor n s).keepsFault
  | setpin n on => cases h; exact .inl (keepsFault_setSinglePin n on s)
  | enall on => cases h; exact .inl (onlyPwm_enableAll on s).keepsFault
  | enpins => cases h; exact .inl (onlyPwm_enableAll true s).keepsFault
  | dispins => cases h; exact .inl (onlyPwm_enableAll false s).keepsFault
  | setallspd x => cases h; exact .inl (onlyPwm_setAllSpeed x s).keepsFault
  | wrbit pos v => exact .inr (.inl ⟨pos, v, rfl⟩)
  | wrpair hi lo v => exact .inr (.inr ⟨hi, lo, v, rfl⟩)

/-- Settles O45: the two commands' guards are those of their procedures; past the guards both compare and commit. -/
theorem onlyLatchWritesFault : Obligations.OnlyLatchWritesFault := by
  intro i s t h
  rcases keepsFault_or_latchWrite h with ⟨hfault, hcause⟩ | ⟨pos, v, rfl⟩ | ⟨hi, lo, v, rfl⟩
  · exact .inl ⟨hfault, hcause⟩
  · cases h
    rcases writeBit_cases pos v s with ⟨hpos, h⟩ | ⟨_, h⟩
    · exact .inr (.inl ⟨pos, v, rfl, hpos, h⟩)
    · rw [h]
      exact .inl ⟨commitIfChanged_fault _ s, commitIfChanged_cause _ s⟩
  · cases h
    rcases writeBitPair_cases hi lo v s with ⟨hrange, h⟩ | ⟨hle, rfl, h⟩ | ⟨_, _, _, h⟩
    · exact .inr (.inr (.inl ⟨hi, lo, v, rfl, hrange, h⟩))
    · exact .inr (.inr (.inr ⟨hi, v, rfl, hle, h⟩))
    · rw [h]
      exact .inl ⟨commitIfChanged_fault _ s, commitIfChanged_cause _ s⟩

/-! ### The idle block (60_exceptions.md R108) -/

/-- Settles O10: the port's branch for a host with no move left. -/
theorem idleBlockHolds : Obligations.IdleBlockHolds := by
  intro s h
  simp only [step, portStep, h]

end Sys2Proof.Proofs
end

section
/-! PROOFS. The reset sequence, between commands and during one (70_reset_and_hazards.md R109 to R112), the enables it leaves
(R110), and the wrong output that only a commit mends (R119). -/

namespace Sys2Proof.Proofs

open Sys2Proof.Machine Sys2Proof.Safety

/-! ### Reset between commands (70_reset_and_hazards.md R109 to R111) -/

/-- Settles O14: the host's move is the reset sequence, which looks at nothing but the trace and the host's later moves. -/
theorem resetFromAnyState : Obligations.ResetFromAnyState := by
  intro s rest h
  simp only [step, portStep, h, hostMove, resetSequence_eq]
  rfl

/-- Settles O56: the reset state is the one after a reset with no trace before it. -/
theorem resetEnablesFollowTrace : Obligations.ResetEnablesFollowTrace := enablesFollowTrace_afterReset [] []

/-! ### Reset during a command (70_reset_and_hazards.md R109) -/

/-- A reset during the word `w` leaves the reset state, after what is kept of the events `es` the word would have emitted. -/
theorem step_of_resetDuring {s u : State} {w : Word} {k : Nat} {rest : List HostMove} {es : List Event}
    (h : s.host = .resetDuring w k :: rest) (hu : acceptWord w { s with host := rest } = .next u)
    (hes : u.trace = s.trace ++ es) :
    step s = .next { State.reset with trace := s.trace ++ keptEvents w k es ++ State.reset.trace, host := rest } := by
  simp only [step, portStep, h, hostMove, hu, resetSequence_eq, abandonAfter_trace, hes, List.drop_left]
  rfl

/-- The commands of the `enableAll` family (42_pin_and_global_commands.md R89 to R91). -/
theorem enablesAll_iff (i : Instr) : enablesAll i = true ↔ (∃ on, i = .enall on) ∨ i = .enpins ∨ i = .dispins := by
  cases i <;> simp [enablesAll]

theorem exec_of_enablesAll {i : Instr} (hi : enablesAll i = true) (s : State) :
    ∃ on, exec i s = .next (enableAll on s) := by
  rcases (enablesAll_iff i).1 hi with ⟨on, rfl⟩ | rfl | rfl
  · exact ⟨on, rfl⟩
  · exact ⟨true, rfl⟩
  · exact ⟨false, rfl⟩

/-- A word of the `enableAll` family emits at most its four gate events, none on a halted block. -/
theorem length_events_of_enablesAll {w : Word} {i : Instr} {s u : State} {es : List Event} (hw : decode w = .ok i)
    (hi : enablesAll i = true) (hu : acceptWord w s = .next u) (hes : u.trace = s.trace ++ es) : es.length ≤ 4 := by
  cases hs : s.fault with
  | true =>
    rw [acceptWord_of_fault w hs] at hu
    cases hu
    simp [List.self_eq_append_right.1 hes]
  | false =>
    obtain ⟨on, hexec⟩ := exec_of_enablesAll hi s
    rw [acceptWord_of_ok hs hw, hexec] at hu
    cases hu
    rw [enableAll_eq] at hes
    rw [← List.append_cancel_left hes]
    simp [gateEvents, channels]

/-- Settles O15: the kept events are the first `k`; of the `enableAll` family, which emits four at most, all or none. -/
theorem resetAbandonsCommand : Obligations.ResetAbandonsCommand := by
  intro s w k rest h
  obtain ⟨u, hu, effect⟩ := acceptWord_effect w { s with host := rest }
  obtain ⟨_, es, hes⟩ := effect_appends effect
  refine ⟨u, es, keptEvents w k es, hu, hes, step_of_resetDuring h hu hes, fun family => ?_, fun other => ?_⟩
  · obtain ⟨i, hw, hi⟩ : ∃ i, decode w = .ok i ∧ enablesAll i = true := by
      rcases family with ⟨on, hw⟩ | hw | hw <;> exact ⟨_, hw, rfl⟩
    rw [keptEvents_of_enablesAll hw hi]
    split
    · rfl
    · exact List.take_of_length_le ((length_events_of_enablesAll hw hi hu hes).trans (by omega))
  · obtain ⟨notEnall, notEnpins, notDispins⟩ := other
    refine keptEvents_of_not_enablesAll (fun i hw => Bool.eq_false_iff.2 fun hi => ?_) k es
    rcases (enablesAll_iff i).1 hi with ⟨on, rfl⟩ | rfl | rfl
    · exact notEnall on hw
    · exact notEnpins hw
    · exact notDispins hw

/-! ### The reset's events, seen on the pins (70_reset_and_hazards.md R110, R112) -/

/-- Whatever the pins are, some state shows them. -/
theorem exists_pinsOf_eq (p : Pins) : ∃ s, pinsOf s = p :=
  ⟨{ State.reset with
      data := p.data, clock := p.clock, latch := p.latch, srStage := p.srStage, srOut := p.srOut, duty := p.duty
      en := p.en }, rfl⟩

/-- `LATCH` does not go high among the first 29 events of a reset: the gate events, the shift-out, the first delay. -/
theorem no_rise_take_29_resetEvents : .dig .latch true ∉ resetEvents.take 29 := by
  have parts : resetEvents.take 29 = gateEvents false ++ (shiftEvents 0#8 ++ [settleDelay]) := rfl
  simp [parts, no_rise_shiftEvents, gateEvents, settleDelay]

/-- From the fourth event of a reset on every channel is off: the gate events disable all, the commit's touch none. -/
theorem en_after_resetEvents {k : Nat} (hk : 4 ≤ k) (s : State) :
    (performAll (resetEvents.take k) s).en = Vector.replicate 4 false := by
  obtain ⟨j, rfl⟩ := Nat.exists_eq_add_of_le hk
  have parts : resetEvents.take (4 + j) = gateEvents false ++ (commitEvents 0#8).take j :=
    List.take_length_add_append (l₁ := gateEvents false) j
  have bus : ∀ e ∈ (commitEvents 0#8).take j, e.isBus = true := fun e he =>
    isBus_of_mem_commitEvents (List.mem_of_mem_take he)
  obtain ⟨_, hen⟩ := performAll_bus_channels bus (enableAll false s)
  rw [parts, performAll_append, ← enableAll, hen, enableAll_eq]

/-- Settles O16: the pins are those of a state, on which the events act. -/
theorem resetDisablesBeforeLatchClears : Obligations.ResetDisablesBeforeLatchClears := by
  intro p k
  obtain ⟨s, rfl⟩ := exists_pinsOf_eq p
  rw [← pinsOf_performAll]
  refine ⟨fun hk => ?_, fun hk n => ?_⟩
  · exact performAll_srOut_of_no_rise
      (fun hmem => no_rise_take_29_resetEvents (List.take_subset_take_left resetEvents hk hmem)) s
  · have hen : (performAll (State.reset.trace.take k) s).en = Vector.replicate 4 false := en_after_resetEvents hk s
    simp [pinsOf, hen]

/-! ### A wrong output (70_reset_and_hazards.md R119) -/

/-- Writing a bit the value it has does nothing (40_latch_register.md R65). -/
theorem writeBit_same {pos : Nat} (hpos : pos ≤ 7) (s : State) : writeBit pos (s.shadow.getLsbD pos) s = s := by
  rw [writeBit, if_neg (by omega), setbit_eq_self (by omega) rfl, commitIfChanged_self]

/-- Writing a bit the other value commits (40_latch_register.md R65). -/
theorem writeBit_opposite {pos : Nat} {v : Bool} (hpos : pos ≤ 7) {s : State} (hv : s.shadow.getLsbD pos ≠ v) :
    writeBit pos v s = commit (setbit s.shadow pos v) s := by
  have changed : setbit s.shadow pos v ≠ s.shadow := fun h => hv <| by
    rw [← h, getLsbD_setbit _ v (by omega) (by omega), if_pos rfl]
  rw [writeBit, if_neg (by omega), commitIfChanged, if_neg changed]

/-- Writing a bit and then the value it had gives the byte back. -/
theorem setbit_restore (b : Byte) {p : Nat} (x : Bool) (hp : p < 8) : setbit (setbit b p x) p (b.getLsbD p) = b := by
  refine BitVec.eq_of_getLsbD_eq fun i hi => ?_
  rw [getLsbD_setbit _ _ hp hi, getLsbD_setbit _ _ hp hi]
  split
  · next hip => rw [hip]
  · rfl

/-- Writing a bit the other value and then the old one is two commits, the second of the byte there was. -/
theorem writeBit_back {pos : Nat} (hpos : pos ≤ 7) {v : Bool} {s : State} (hv : s.shadow.getLsbD pos ≠ v) :
    writeBit pos (s.shadow.getLsbD pos) (writeBit pos v s) = commit s.shadow (commit (setbit s.shadow pos v) s) := by
  have flipped : (commit (setbit s.shadow pos v) s).shadow.getLsbD pos ≠ s.shadow.getLsbD pos := by
    rw [commit_shadow, getLsbD_setbit _ _ (by omega) (by omega), if_pos rfl]
    exact hv.symm
  rw [writeBit_opposite hpos hv, writeBit_opposite hpos flipped, commit_shadow, setbit_restore _ _ (by omega)]

/-- Settles O51: the same value is no change; the opposite value and then the old one are two commits, and a commit settles
the outputs. -/
theorem wrongOutputsStayUntilACommit : Obligations.WrongOutputsStayUntilACommit := by
  refine ⟨fun pos s hpos => congrArg Host.Outcome.next (writeBit_same hpos s), fun pos s hpos hs => ?_⟩
  have hv : s.shadow.getLsbD pos ≠ !s.shadow.getLsbD pos := by simp
  have settled := busSettled_commit (setbit s.shadow pos (!s.shadow.getLsbD pos)) hs
  refine ⟨_, _, rfl, ?_, rfl, ?_⟩
  · rw [writeBit_opposite hpos hv]
    exact settled.outputs
  · rw [writeBit_back hpos hv, (busSettled_commit s.shadow (busIdle_of_busSettled settled)).outputs]
    exact ⟨commit_shadow _ _, commit_shadow _ _⟩

end Sys2Proof.Proofs
end

section
/-! PROOFS. The encoding examples (30_encoding.md section 8): a command's word is that of the encoder, a reserved word is in no
row or has no Direction. -/

namespace Sys2Proof.Proofs

/-- The word the encoder gives a command decodes to that command (30_encoding.md R54). -/
theorem decode_of_encode_eq {w : Word} {i : Instr} (hi : i.wellFormed = true) (hw : encode i = w) : decode w = .ok i :=
  hw ▸ decodeInvertsEncode i hi

/-- A word in no row is reserved for its `op`, or else for a field that must be zero (30_encoding.md R55). -/
theorem decode_of_find_eq_none {w : Word} (h : opcodeRows.find? (rowMatches w) = none) :
    decode w = if opcodeReserved w then .error .opcode else .error .mustBeZero := by
  rw [decode, h]

/-- Settles O5: each of the thirteen words is the encoder's; of the reserved ones the first is in the row of `SETDIR`, the other
two are in none. -/
theorem specWordsDecode : Obligations.SpecWordsDecode := by
  refine ⟨?_, ?_, ?_, ?_, ?_, ?_, ?_, ?_, ?_, ?_, ?_, ?_, ?_, ?direction, ?mustBeZero, ?opcode⟩
  case direction => exact Laws.decode_of_rowMatches (r := .setdir) (by decide)
  case mustBeZero => exact decode_of_find_eq_none (by decide)
  case opcode => exact decode_of_find_eq_none (by decide)
  all_goals exact decode_of_encode_eq (by decide) (by decide)

end Sys2Proof.Proofs
end
